-- ==== Sys2Proof/Word.lean ====
section
/-! DEFINITION. The words of the interface and the digits of the datapath (spec/00_scope.md R6, R8; spec/30_encoding.md R90). -/

namespace Sys2Proof

/-- A command word or a response word: `CMD_W` = `RSP_W` = 16 bits (R6, R80, R86). Bit 0 is the least significant (R8). -/
abbrev Word16 := BitVec 16

/-- A data byte or a character code: 8 bits, unsigned (R90, `SYM_W` of R6). -/
abbrev Byte := BitVec 8

/-- A digit value 0..59 (R90 (b)). The spec holds it in 6 bits (`DIG_W`, R6); the type keeps the
bound that R26 states for it. DEDUCED, safe: log entry 11. -/
abbrev Digit := Fin 60

end Sys2Proof
end

