-- ==== Sys2Proof/Machine/State.lean ====
section
/-! DEFINITION. The state of the block (spec/10_state.md R20 to R31), its two channels
(spec/70_reset_and_hazards.md R233), and the reasons a step can stop. -/

namespace Sys2Proof.Machine

/-- The four read-only address spaces of the block (spec/20_memory.md R50). -/
inductive Table where
  | ktab
  | alpha
  | inv
  | kinv
  deriving DecidableEq, Repr

/-- What the host can do to the block, in the order it happens (R242): a command word moves on the
command channel, a response word moves on the response channel, `rst` is 1 at a rising edge of `clk`. -/
inductive HostEvent where
  /-- A command word moves on the command channel (R233, R239). -/
  | command (w : Word16)
  /-- The host takes one word from the response channel (R233). -/
  | takeResponse
  /-- `rst` is 1 at a rising edge of `clk` (R230). -/
  | reset
  deriving DecidableEq, Repr

/-- Why a step stops with a fault. -/
inductive Fault where
  /-- A table is read at an index outside its range. Raised by `ENCF` when `NB` is 9..15 and by
  `DECF` when `NS` is 11..15 and `ERR` is not 1. R59 says no command ever forms such an index and
  defines nothing for one; no state that meets R30 does. Safe: the model stops where the spec is
  silent. DESIGN CHOICE, log entry 7. -/
  | noSuchEntry (table : Table) (index : Nat)
  deriving DecidableEq, Repr

/-- Why a step is refused. -/
inductive Refusal where
  /-- The instruction has no meaning in the model yet. Raised by an arm of `exec` only; every
  instruction of this model has its meaning, so no arm raises it. Safe. -/
  | notModelled (mnemonic : String)
  deriving DecidableEq, Repr

/-- The whole state: the seven registers of R20, the scratch buffer of R26, the channels of R233. -/
structure State where
  /-- `EACC`, the encode accumulator (R21). -/
  eacc : BitVec 64
  /-- `NB`, the byte count of the current block (R22). -/
  nb : BitVec 4
  /-- `DACC`, the decode accumulator (R23). -/
  dacc : BitVec 65
  /-- `NS`, the symbol count of the current group (R24). -/
  ns : BitVec 4
  /-- `ERR`, the decode error register (R25). -/
  err : BitVec 3
  /-- `ECHR`, the offending character (R27). -/
  echr : BitVec 8
  /-- `ILL`, the illegal-command flag (R29). -/
  ill : BitVec 1
  /-- `DIG[0..10]`, the digit scratch buffer (R26; log entry 2). -/
  dig : Vector Digit 11
  /-- The response channel: words produced and not yet taken by the host, oldest first (R86, R230, R233). -/
  rsp : List Word16
  /-- The words that have moved on the response channel, oldest first (R233). -/
  delivered : List Word16
  /-- What the host does from here on, next first (R233, R239, R242; log entry 3). -/
  host : List HostEvent
  deriving DecidableEq, Repr

/-- The state right after reset (R31, R230): every register 0, the response channel empty. `DIG` is
unspecified there (R26); all zero is the model's value (DESIGN CHOICE, log entry 2). Nothing has
been delivered and the host has planned nothing (log entry 3). -/
def State.reset : State where
  eacc := 0#64
  nb := 0#4
  dacc := 0#65
  ns := 0#4
  err := 0#3
  echr := 0#8
  ill := 0#1
  dig := Vector.replicate 11 0
  rsp := []
  delivered := []
  host := []

end Sys2Proof.Machine
end

