-- ==== Sys2Proof/Machine/Flags.lean ====
section
/-! DEFINITION. The status registers: the codes of `ERR` and their merge (spec/10_state.md R25,
spec/60_exceptions.md R200, R206), and the status word (spec/30_encoding.md R89). -/

namespace Sys2Proof.Machine

/-- The decode errors the block can raise (R200). InvalidText, code 4, is reserved and never raised
(R204), so it is no constructor. -/
inductive DecodeError where
  /-- Code 1, with the offending character (R201). -/
  | invalidCharacter (c : Byte)
  /-- Code 2 (R202). -/
  | invalidLength
  /-- Code 3 (R203). -/
  | valueOutOfRange
  deriving DecidableEq, Repr

/-- The code of an error in `ERR` (R25, R200). -/
def errorCode : DecodeError → BitVec 3
  | .invalidCharacter _ => 1#3
  | .invalidLength => 2#3
  | .valueOutOfRange => 3#3

/-- What an error reports beside its code: the character, else 0 (R200, R88). -/
def errorInfo : DecodeError → Byte
  | .invalidCharacter c => c
  | .invalidLength => 0#8
  | .valueOutOfRange => 0#8

/-- `merge(old, e)`: a lower code outranks a higher one, and any code outranks 0 (R206). -/
def merge (old e : BitVec 3) : BitVec 3 :=
  if old = 0#3 then e else if e < old then e else old

/-- `ECHR` after `raise e`: "for `e` = 1 when the result differs from `old`, also `ECHR <- info`" (R206). -/
def mergeChar (old : BitVec 3) (echr : Byte) : DecodeError → Byte
  | .invalidCharacter c => if merge old 1#3 = old then echr else c
  | .invalidLength => echr
  | .valueOutOfRange => echr

/-- `(ILL << 11) OR (ERR << 8) OR (NS << 4) OR NB` (R89, R162). -/
def statusBits (s : State) : BitVec 12 :=
  (s.ill.setWidth 12 <<< 11) ||| (s.err.setWidth 12 <<< 8) ||| (s.ns.setWidth 12 <<< 4) |||
    s.nb.setWidth 12

end Sys2Proof.Machine
end

