-- ==== Sys2Proof/Config.lean ====
section
/-! DEFINITION. What one instance of the hardware fixes: the open parameter `ALPHABET` (spec/00_scope.md R7, spec/20_memory.md R52). -/

namespace Sys2Proof

/-- `ALPHABET` (R7): the list of the 60 character codes, entry `d` being the symbol of digit `d`,
with what R52 requires of any value of the parameter: exactly 60 entries, pairwise distinct, every
entry a printable ASCII code in 0x21..0x7E. The checks stand in the structure, so a value that
breaks one cannot be built. The default value is `Sys2Proof.Machine.alphabet` (log entry 1). -/
structure Alphabet where
  codes : List Byte
  length_eq : codes.length = 60
  nodup : codes.Nodup
  printable : ∀ c ∈ codes, 0x21 ≤ c.toNat ∧ c.toNat ≤ 0x7E

end Sys2Proof
end

