-- ==== Sys2Proof/Machine/Tables.lean ====
section
/-! DEFINITION. The four constant tables `KTAB`, `ALPHA`, `INV`, `KINV` (spec/20_memory.md R50 to R59)
and the default `ALPHABET` (R52). -/

namespace Sys2Proof.Machine

/-- `x mod 60` as a digit (R119). -/
def remainder60 (x : Nat) : Digit := ⟨x % 60, Nat.mod_lt x (by decide)⟩

/-- An entry of `INV` (R50, R53). -/
structure InvEntry where
  valid : Bool
  value : Digit
  deriving DecidableEq, Repr

/-- An entry of `KINV` (R50, R54). -/
structure KinvEntry where
  valid : Bool
  n : BitVec 4
  deriving DecidableEq, Repr

/-- The 7 bits of an `INV` entry: `valid` is bit 6, `value` bits 5..0 (R50). -/
def invBits (e : InvEntry) : BitVec 7 := BitVec.ofBool e.valid ++ BitVec.ofNat 6 e.value.val

/-- The 5 bits of a `KINV` entry: `valid` is bit 4, `n` bits 3..0 (R50). -/
def kinvBits (e : KinvEntry) : BitVec 5 := BitVec.ofBool e.valid ++ e.n

/-- `KTAB[n]`, `n` in 0..8 (R51). There is no entry outside that range (R59). -/
def ktab (n : Nat) : Option (BitVec 4) := [0, 2, 3, 5, 6, 7, 9, 10, 11][n]?

/-- `KINV[r]`, `r` in 0..10 (R54). There is no entry outside that range (R59). -/
def kinv (r : Nat) : Option KinvEntry :=
  [⟨true, 0⟩, ⟨false, 0⟩, ⟨true, 1⟩, ⟨true, 2⟩, ⟨false, 0⟩, ⟨true, 3⟩, ⟨true, 4⟩, ⟨true, 5⟩,
   ⟨false, 0⟩, ⟨true, 6⟩, ⟨true, 7⟩][r]?

/-- `ALPHA[d] = ALPHABET[d]`, `d` in 0..59 (R52). -/
def alpha (A : Alphabet) (d : Digit) : Byte := A.codes[d.val]'(by rw [A.length_eq]; exact d.isLt)

/-- `INV[c]`, total over the 256 codes (R53): valid with the digit whose symbol is `c`, else (0, 0). -/
def inv (A : Alphabet) (c : Byte) : InvEntry :=
  match A.codes.findIdx? (· == c) with
  | some d => ⟨true, remainder60 d⟩
  | none => ⟨false, 0⟩

/-- The codes of the default `ALPHABET`, the table of R52 (spec/92_eei_decisions.md D1; log entries
1 and 8): digits, uppercase letters without `I` and `O`, lowercase letters. -/
def defaultCodes : List Byte :=
  [0x30, 0x31, 0x32, 0x33, 0x34, 0x35, 0x36, 0x37, 0x38, 0x39] ++
  [0x41, 0x42, 0x43, 0x44, 0x45, 0x46, 0x47, 0x48, 0x4A, 0x4B, 0x4C, 0x4D] ++
  [0x4E, 0x50, 0x51, 0x52, 0x53, 0x54, 0x55, 0x56, 0x57, 0x58, 0x59, 0x5A] ++
  [0x61, 0x62, 0x63, 0x64, 0x65, 0x66, 0x67, 0x68, 0x69, 0x6A, 0x6B, 0x6C, 0x6D] ++
  [0x6E, 0x6F, 0x70, 0x71, 0x72, 0x73, 0x74, 0x75, 0x76, 0x77, 0x78, 0x79, 0x7A]

/-- The value of `ALPHABET` of the machine `Sys2Proof.core`: the spec's default (R7, D1). UNSAFE for
a claim that names concrete symbols, log entry 1; the machine of any other value is `stepWith`. -/
def alphabet : Alphabet where
  codes := defaultCodes
  length_eq := by decide
  nodup := by decide
  printable := by decide

end Sys2Proof.Machine
end

