-- ==== Sys2Proof/Machine/Datapath.lean ====
section
/-! DEFINITION. The datapath functions the commands are built from (spec/40_datapath.md R110 to R117).

Arithmetic is exact wherever the preconditions of the rules hold (R118); outside them, in states
that R30 excludes, a register keeps the low bits of its width (DESIGN CHOICE, log entry 6). -/

namespace Sys2Proof.Machine

/-- `ShiftIn(acc, b) = (acc << 8) OR zext_64(b)` (R110). -/
def shiftIn (acc : BitVec 64) (b : Byte) : BitVec 64 := (acc <<< 8) ||| b.setWidth 64

/-- `GroupLen(n) = KTAB[n]` (R111). -/
def groupLen (n : Nat) : Option (BitVec 4) := ktab n

/-- The loop of `ToDigits` (R112), told by how many iterations are left: with `k + 1` left the entry
written is `DIG[k]`, so `toDigits K v dig` writes `DIG[K-1]` first and `DIG[0]` last. Answers the
final `T` and the buffer. -/
def toDigits : Nat → Nat → Vector Digit 11 → Nat × Vector Digit 11
  | 0, t, dig => (t, dig)
  | k + 1, t, dig => toDigits k (t / 60) (dig.setIfInBounds k (remainder60 t))

/-- `DIG[0], ..., DIG[K-1]`: the result of a conversion, most significant digit first (R112). -/
def readDigits (K : Nat) (dig : Vector Digit 11) : List Digit := dig.toList.take K

/-- `Horner(acc, d) = acc*60 + d` in the 65 bits of `DACC` (R114). -/
def horner (acc : BitVec 65) (d : Digit) : BitVec 65 := acc * 60#65 + BitVec.ofNat 65 d.val

/-- `InRange(v, n)`: `v < 2^(8n)` (R116). -/
def inRange (v : BitVec 65) (n : Nat) : Bool := v.toNat < 2 ^ (8 * n)

/-- `ToBytes(v, n)`: byte `i` (0 = first) is `(v >> (8*(n-1-i))) mod 256` (R117). -/
def toBytes (v : BitVec 65) (n : Nat) : List Byte :=
  (List.range n).map fun i => BitVec.ofNat 8 (v.toNat / 2 ^ (8 * (n - 1 - i)))

end Sys2Proof.Machine
end

