-- ==== Sys2Proof/Machine/Operands.lean ====
section
/-! DEFINITION. The operand forms of the commands (spec/30_encoding.md R81, R90): the 8-bit `arg` as a
data byte of `ENCB` and as a character code of `DECS`. It is never sign-extended, scaled or shifted. -/

namespace Sys2Proof.Machine

/-- The operand of `ENCB`: a data byte 0..255, taken as it stands (R81, R90 (a)). -/
def dataByte (arg : Byte) : Byte := arg

/-- The operand of `DECS` through the table: `Dig(c) = INV[c]` (R115, R90 (d)). All 256 codes have
an answer. -/
def charDigit (A : Alphabet) (arg : Byte) : InvEntry := inv A arg

end Sys2Proof.Machine
end

