-- ==== Sys2Proof/Machine/Responses.lean ====
section
/-! DEFINITION. The response words, format `P` (spec/30_encoding.md R86 to R88). -/

namespace Sys2Proof.Machine

/-- The five kinds of response (R87). -/
inductive Response where
  /-- `SYM(c)`: one symbol of the encoded string. -/
  | sym (c : Byte)
  /-- `BYTE(b)`: one decoded byte, provisional until the stream's `FIN`. -/
  | byte (b : Byte)
  /-- `FIN(v, d)`: end of stream, verdict `v`, payload `d`. -/
  | fin (v : BitVec 4) (d : Byte)
  /-- `STAT(s)`: the 12-bit status. -/
  | stat (s : BitVec 12)
  /-- `ILLC`: the command word matched no row of R84. -/
  | illc
  deriving DecidableEq, Repr

/-- The 16-bit word of a response (R87). -/
def responseWord : Response → Word16
  | .sym c => 0x1000#16 ||| c.setWidth 16
  | .byte b => 0x2000#16 ||| b.setWidth 16
  | .fin v d => 0x3000#16 ||| (v.setWidth 16 <<< 8) ||| d.setWidth 16
  | .stat s => 0x4000#16 ||| s.setWidth 16
  | .illc => 0xF000#16

/-- `kind` = bits 15..12 of a response word (R86). -/
def kindField (w : Word16) : BitVec 4 := w.extractLsb' 12 4

/-- `code` = bits 11..8 of a response word (R86). -/
def codeField (w : Word16) : BitVec 4 := w.extractLsb' 8 4

/-- `data` = bits 7..0 of a response word (R86). -/
def dataField (w : Word16) : Byte := w.extractLsb' 0 8

/-- How the host reads a response word. `none`: a word no rule produces (R87: `kind` 0x0 and
0x5..0xE; R86: `code` is 0000 in `SYM`, `BYTE` and `ILLC`, and the data of `ILLC` is 0). -/
def readResponse (w : Word16) : Option Response :=
  if kindField w = 0x1#4 ∧ codeField w = 0#4 then some (.sym (dataField w))
  else if kindField w = 0x2#4 ∧ codeField w = 0#4 then some (.byte (dataField w))
  else if kindField w = 0x3#4 then some (.fin (codeField w) (dataField w))
  else if kindField w = 0x4#4 then some (.stat (w.extractLsb' 0 12))
  else if w = 0xF000#16 then some .illc
  else none

end Sys2Proof.Machine
end

