-- ==== Sys2Proof/Machine/Ops.lean ====
section
/-! DEFINITION. The shared operations over the state: emitting responses, raising and leaving an
error, the illegal command, reset, and the response channel. -/

namespace Sys2Proof.Machine

/-- `emit`, for a list of responses in order: append their words to the response channel (R86, R60). -/
def emit (rs : List Response) (s : State) : State :=
  { s with rsp := s.rsp ++ rs.map responseWord }

/-- TAKING AN ERROR: `raise E` (spec/60_exceptions.md R206, R208). It saves the code in `ERR` and,
for InvalidCharacter, the character in `ECHR`; nothing else is saved and control goes nowhere. -/
def raise (e : DecodeError) (s : State) : State :=
  { s with err := merge s.err (errorCode e), echr := mergeChar s.err s.echr e }

/-- LEAVING AN ERROR, and the end of any decode stream: the decode side clean for the next stream
(R210, R142). -/
def clearDecodeSide (s : State) : State :=
  { s with dacc := 0#65, ns := 0#4, err := 0#3, echr := 0#8 }

/-- The encode side as it is at a block boundary (R130, R131). -/
def clearEncodeSide (s : State) : State :=
  { s with eacc := 0#64, nb := 0#4 }

/-- IllegalCommand (spec/43_control_commands.md R163, R205): set `ILL`, emit `ILLC`, nothing else. -/
def illegalCommand (s : State) : State :=
  emit [.illc] { s with ill := 1#1 }

/-- Reset, `rst` = 1 at a rising edge (spec/70_reset_and_hazards.md R230): every register at its
value of R31, and the response channel emptied. `DIG` is unspecified there (log entry 2); what the
host has taken it keeps (log entry 5). -/
def hardReset (s : State) : State :=
  { State.reset with delivered := s.delivered, host := s.host }

/-- The host takes the oldest response word; with none on offer (`rsp_valid` = 0) nothing moves (R233). -/
def takeResponse (s : State) : State :=
  { s with rsp := s.rsp.tail, delivered := s.delivered ++ s.rsp.take 1 }

/-- `ToDigits(EACC, K)` in place, then `SYM(ALPHA[DIG[j]])` for `j` = 0..K-1 (R112, R113, R130, R131). -/
def emitGroup (A : Alphabet) (K : Nat) (s : State) : State :=
  emit ((readDigits K (toDigits K s.eacc.toNat s.dig).2).map fun d => .sym (alpha A d))
    { s with
      eacc := BitVec.ofNat 64 (toDigits K s.eacc.toNat s.dig).1
      dig := (toDigits K s.eacc.toNat s.dig).2 }

/-- `emit FIN(v, d)`, then the decode side clean for the next stream: the last lines of `DECF` (R142). -/
def closeDecode (v : BitVec 4) (d : Byte) (s : State) : State :=
  clearDecodeSide (emit [.fin v d] s)

end Sys2Proof.Machine
end

