-- ==== Sys2Proof/Machine/ControlCommands.lean ====
section
/-! DEFINITION. The control commands `NOP`, `CLR`, `RDST` (spec/43_control_commands.md R160 to R162). -/

namespace Sys2Proof.Machine

/-- The meaning of `NOP` (R160). -/
def execNop (s : State) : Host.Outcome State Fault Refusal := .next s

/-- The meaning of `CLR` (R161): every architectural register 0; `DIG` and the responses already
produced are untouched. -/
def execClr (s : State) : Host.Outcome State Fault Refusal :=
  .next { clearDecodeSide (clearEncodeSide s) with ill := 0#1 }

/-- The meaning of `RDST` (R162): one `STAT`, nothing written. -/
def execRdst (s : State) : Host.Outcome State Fault Refusal :=
  .next (emit [.stat (statusBits s)] s)

end Sys2Proof.Machine
end

