-- ==== Sys2Proof/Machine/DecodeCommands.lean ====
section
/-! DEFINITION. The decode commands `DECS` and `DECF` (spec/42_decode_commands.md R140 to R142). -/

namespace Sys2Proof.Machine

/-- `DECS c` in the clean condition, `d` the digit of `c`: accumulate, and at the 11th symbol check
the range and emit 8 bytes or go to drain (R141). -/
def acceptDigit (d : Digit) (s : State) : State :=
  let s1 := { s with dacc := horner s.dacc d, ns := s.ns + 1#4 }
  if s1.ns = 11#4 then
    let s2 :=
      if inRange s1.dacc 8 then emit ((toBytes s1.dacc 8).map .byte) s1
      else raise .valueOutOfRange s1
    { s2 with dacc := 0#65, ns := 0#4 }
  else s1

/-- `DECS c` in the drain condition: `NS <- (NS + 1) mod 11` (R141). -/
def drainDigit (s : State) : State :=
  { s with ns := BitVec.ofNat 4 ((s.ns.toNat + 1) % 11) }

/-- `DECS c` over any `ALPHABET` (R141). -/
def decodeChar (A : Alphabet) (c : Byte) (s : State) : Host.Outcome State Fault Refusal :=
  if s.err = 1#3 then .next s
  else if (charDigit A c).valid = false then .next (raise (.invalidCharacter c) s)
  else if s.err = 3#3 then .next (drainDigit s)
  else .next (acceptDigit (charDigit A c).value s)

/-- `DECF` (R142). It reads no table that depends on `ALPHABET`. -/
def decodeFinish (s : State) : Host.Outcome State Fault Refusal :=
  if s.err = 1#3 then .next (closeDecode 1#4 s.echr s)
  else
    match kinv s.ns.toNat with
    | none => .fault (.noSuchEntry .kinv s.ns.toNat)
    | some e =>
      if e.valid = false then .next (closeDecode 2#4 0#8 (raise .invalidLength s))
      else if s.err = 3#3 then .next (closeDecode 3#4 0#8 s)
      else if e.n = 0#4 then .next (closeDecode 0#4 0#8 s)
      else if inRange s.dacc e.n.toNat then
        .next (closeDecode 0#4 0#8 (emit ((toBytes s.dacc e.n.toNat).map .byte) s))
      else .next (closeDecode 3#4 0#8 (raise .valueOutOfRange s))

/-- The meaning of `DECS c` (R141). -/
def execDecs (c : Byte) (s : State) : Host.Outcome State Fault Refusal := decodeChar alphabet c s

/-- The meaning of `DECF` (R142). -/
def execDecf (s : State) : Host.Outcome State Fault Refusal := decodeFinish s

end Sys2Proof.Machine
end

