-- ==== Sys2Proof/Machine/EncodeCommands.lean ====
section
/-! DEFINITION. The encode commands `ENCB` and `ENCF` (spec/41_encode_commands.md R130, R131). -/

namespace Sys2Proof.Machine

/-- `ENCB b` over any `ALPHABET` (R130). -/
def encodeByte (A : Alphabet) (b : Byte) (s : State) : Host.Outcome State Fault Refusal :=
  let s1 := { s with eacc := shiftIn s.eacc (dataByte b), nb := s.nb + 1#4 }
  if s1.nb = 8#4 then
    match groupLen 8 with
    | none => .fault (.noSuchEntry .ktab 8)
    | some K => .next (clearEncodeSide (emitGroup A K.toNat s1))
  else .next s1

/-- `ENCF` over any `ALPHABET` (R131). -/
def encodeFinish (A : Alphabet) (s : State) : Host.Outcome State Fault Refusal :=
  if s.nb = 0#4 then .next (emit [.fin 0#4 0#8] s)
  else
    match groupLen s.nb.toNat with
    | none => .fault (.noSuchEntry .ktab s.nb.toNat)
    | some K => .next (emit [.fin 0#4 0#8] (clearEncodeSide (emitGroup A K.toNat s)))

/-- The meaning of `ENCB b` (R130). -/
def execEncb (b : Byte) (s : State) : Host.Outcome State Fault Refusal := encodeByte alphabet b s

/-- The meaning of `ENCF` (R131). -/
def execEncf (s : State) : Host.Outcome State Fault Refusal := encodeFinish alphabet s

end Sys2Proof.Machine
end

