-- ==== Sys2Proof/Syntax.lean ====
section
/-! DEFINITION. The command set: the seven rows of spec/opcode_table.json (spec/30_encoding.md R84). -/

namespace Sys2Proof

/-- One constructor per row of the opcode table. The only operand is the unsigned 8-bit `arg` of
`ENCB` and `DECS`, used as it stands (R81). -/
inductive Instr where
  /-- `NOP` (R160). -/
  | nop
  /-- `CLR`, the soft reset (R161). -/
  | clr
  /-- `ENCB b`: encode, take one byte (R130). -/
  | encb (b : Byte)
  /-- `ENCF`: encode, finish the stream (R131). -/
  | encf
  /-- `DECS c`: decode, take one character (R141). -/
  | decs (c : Byte)
  /-- `DECF`: decode, finish the stream (R142). -/
  | decf
  /-- `RDST`: read status (R162). -/
  | rdst
  deriving DecidableEq, Repr

end Sys2Proof
end

