-- ==== Sys2Proof/Machine/Dispatch.lean ====
section
/-! DEFINITION. One arm per instruction. -/

namespace Sys2Proof.Machine

/-- What an instruction does to a state. -/
def exec (i : Instr) (s : State) : Host.Outcome State Fault Refusal :=
  match i with
  | .nop => Sys2Proof.Machine.execNop s
  | .clr => Sys2Proof.Machine.execClr s
  | .encb b => Sys2Proof.Machine.execEncb b s
  | .encf => Sys2Proof.Machine.execEncf s
  | .decs c => Sys2Proof.Machine.execDecs c s
  | .decf => Sys2Proof.Machine.execDecf s
  | .rdst => Sys2Proof.Machine.execRdst s

end Sys2Proof.Machine
end

