-- ==== Sys2Proof/WellFormed.lean ====
section
/-! DEFINITION. Which command words are well formed (spec/30_encoding.md R80, R85).

Every term of `Instr` is well formed by its type: its one operand is a `Byte`, and R81 allows all
256 of them. What can be ill formed is a command word; the three checks below are the three classes
of R85, written from the word's value and not through the decoder. -/

namespace Sys2Proof

/-- `op` is one of the seven defined operation codes: words with `op` in 0x7..0xF are illegal (R85). -/
def opDefined (w : Word16) : Bool := w.toNat < 0x7000

/-- The field `zero` (bits 11..8) is 0000, as in every defined command (R80). -/
def zeroClear (w : Word16) : Bool := w &&& 0x0F00#16 == 0#16

/-- `arg` (bits 7..0) is 0 unless the command is `ENCB` or `DECS` (R80). -/
def argClear (w : Word16) : Bool :=
  w &&& 0xF000#16 == 0x2000#16 || w &&& 0xF000#16 == 0x4000#16 || w &&& 0x00FF#16 == 0#16

/-- A command word in none of the three illegal classes of R85. -/
def wordWellFormed (w : Word16) : Bool := opDefined w && zeroClear w && argClear w

end Sys2Proof
end

