-- ==== Sys2Proof/Decode.lean ====
section
/-! DEFINITION. Decoding a command word, total on all 65536 of them (spec/30_encoding.md R94), the
encoder, and the match and mask table (R84). -/

namespace Sys2Proof

/-- Why a word is the illegal command: the test of R94 that it failed first. -/
inductive IllegalWord where
  /-- The field `zero` is not 0 (R85, R94). -/
  | zeroNotClear
  /-- `arg` is not 0 in a word that is neither `ENCB` nor `DECS` (R85, R94). -/
  | argNotClear
  /-- `op` is 0x7..0xF (R85, R94). -/
  | opReserved
  deriving DecidableEq, Repr

/-- `op = w[15:12]` (R80). -/
def opField (w : Word16) : BitVec 4 := w.extractLsb' 12 4

/-- `zero = w[11:8]` (R80). -/
def zeroField (w : Word16) : BitVec 4 := w.extractLsb' 8 4

/-- `arg = w[7:0]` (R80). -/
def argField (w : Word16) : Byte := w.extractLsb' 0 8

/-- The decoding procedure of R94, test by test. -/
def decode (w : Word16) : Except IllegalWord Instr :=
  if zeroField w ≠ 0#4 then .error .zeroNotClear
  else if opField w = 0x2#4 then .ok (.encb (argField w))
  else if opField w = 0x4#4 then .ok (.decs (argField w))
  else if argField w ≠ 0#8 then .error .argNotClear
  else if opField w = 0x0#4 then .ok .nop
  else if opField w = 0x1#4 then .ok .clr
  else if opField w = 0x3#4 then .ok .encf
  else if opField w = 0x5#4 then .ok .decf
  else if opField w = 0x6#4 then .ok .rdst
  else .error .opReserved

/-- A row of the command set: a word `w` is the command exactly when `w AND mask = match` (R84). -/
structure OpcodeRow where
  mnemonic : String
  matchWord : Word16
  mask : Word16
  deriving DecidableEq, Repr

/-- The match and mask columns of R84 (the same as spec/opcode_table.json). -/
def opcodeTable : List OpcodeRow :=
  [⟨"NOP", 0x0000#16, 0xFFFF#16⟩, ⟨"CLR", 0x1000#16, 0xFFFF#16⟩, ⟨"ENCB", 0x2000#16, 0xFF00#16⟩,
   ⟨"ENCF", 0x3000#16, 0xFFFF#16⟩, ⟨"DECS", 0x4000#16, 0xFF00#16⟩, ⟨"DECF", 0x5000#16, 0xFFFF#16⟩,
   ⟨"RDST", 0x6000#16, 0xFFFF#16⟩]

/-- `w` is the command of `row` (R84). -/
def matchesRow (row : OpcodeRow) (w : Word16) : Bool := w &&& row.mask == row.matchWord

/-- The row of R84 an instruction belongs to. -/
def rowOf : Instr → OpcodeRow
  | .nop => ⟨"NOP", 0x0000#16, 0xFFFF#16⟩
  | .clr => ⟨"CLR", 0x1000#16, 0xFFFF#16⟩
  | .encb _ => ⟨"ENCB", 0x2000#16, 0xFF00#16⟩
  | .encf => ⟨"ENCF", 0x3000#16, 0xFFFF#16⟩
  | .decs _ => ⟨"DECS", 0x4000#16, 0xFF00#16⟩
  | .decf => ⟨"DECF", 0x5000#16, 0xFFFF#16⟩
  | .rdst => ⟨"RDST", 0x6000#16, 0xFFFF#16⟩

/-- The operand of an instruction, 0 where it has none (R81, R84). -/
def operandOf : Instr → Byte
  | .encb b => b
  | .decs c => c
  | .nop | .clr | .encf | .decf | .rdst => 0#8

/-- The command word of an instruction: "The assembled word is `match OR operand`" (R91, R84). -/
def encode (i : Instr) : Word16 := (rowOf i).matchWord ||| (operandOf i).setWidth 16

/-- The command word that the table's numbering `(nbits, w)` stands for: the low `nbits` bits of
`w`, the bits above them 0. One word is a whole command (R80, R82) and no rule views it through a
narrower access (R63), so no byte order enters. -/
def tableWord (nbits w : Nat) : Word16 := BitVec.ofNat 16 (w % 2 ^ nbits)

/-- The instruction the decoder reads from the bits `w` of a table row of `nbits` bits. -/
def decodeTableWord (nbits w : Nat) : Option Instr :=
  match decode (tableWord nbits w) with
  | .ok i => some i
  | .error _ => none

end Sys2Proof
end

