-- ==== Sys2Proof/Machine/Events.lean ====
section
/-! DEFINITION. What one act of the host makes the block do (spec/70_reset_and_hazards.md R230, R233,
R238, R239). `ex` is the meaning of the instructions: `exec`, or `execWith A` for another `ALPHABET`. -/

namespace Sys2Proof.Machine

/-- The meaning of the instructions, as a parameter of what stands around it. -/
abbrev Meaning := Instr → State → Host.Outcome State Fault Refusal

/-- A command word is executed: the instruction it decodes to, else the illegal command (R94, R163). -/
def runWord (ex : Meaning) (w : Word16) (s : State) : Host.Outcome State Fault Refusal :=
  match decode w with
  | .ok i => ex i s
  | .error _ => .next (illegalCommand s)

/-- One act of the host (R242). -/
def runEvent (ex : Meaning) (e : HostEvent) (s : State) : Host.Outcome State Fault Refusal :=
  match e with
  | .command w => runWord ex w s
  | .takeResponse => .next (takeResponse s)
  | .reset => .next (hardReset s)

/-- The next act of the host happens; with none, an idle block holds its registers (R214). -/
def stepBy (ex : Meaning) (s : State) : Host.Outcome State Fault Refusal :=
  match s.host with
  | [] => .next s
  | e :: rest => runEvent ex e { s with host := rest }

/-- The command word `w` is the next thing the host does. -/
def offer (w : Word16) (s : State) : State := { s with host := .command w :: s.host }

end Sys2Proof.Machine
end

