-- ==== Sys2Proof/Machine/Step.lean ====
section
/-! DEFINITION. One step of the machine: the next act of the host, whole (R238, R239). -/

namespace Sys2Proof.Machine

/-- One step: a command word is executed to its end as one indivisible step (R238), a response word
is taken (R233), or the block is reset (R230). -/
def step (s : State) : Host.Outcome State Fault Refusal := stepBy exec s

/-- `s` with the command of the table's word `(nbits, w)` next on the command channel: the block
fetches nothing (R28), so a command comes to run by the host presenting it (log entry 3). -/
def State.withFetchWord (s : State) (nbits w : Nat) : State := offer (tableWord nbits w) s

end Sys2Proof.Machine
end

