-- ==== Sys2Proof/Machine/Runs.lean ====
section
/-! DEFINITION. Runs of command words, with the responses of each command
(spec/70_reset_and_hazards.md R238, R243; spec/20_memory.md R60). -/

namespace Sys2Proof.Machine

/-- The responses of a step from `s` to `t`: what it appended to the response channel (R238). -/
def newResponses (s t : State) : List Word16 := t.rsp.drop s.rsp.length

/-- What the block has answered between `s` and `t`, whether the host has taken it yet or not: what
the words taken, followed by those on offer, have grown by (R233). -/
def answersSince (s t : State) : List Word16 :=
  (t.delivered ++ t.rsp).drop (s.delivered ++ s.rsp).length

/-- The run of a sequence of command words: `s_i` from `s_(i-1)` and `w_i`, in order (R243). It
stops at the first fault or refusal. -/
def runWords (ex : Meaning) : List Word16 → State → Host.Outcome State Fault Refusal
  | [], s => .next s
  | w :: ws, s =>
    match runWord ex w s with
    | .next t => runWords ex ws t
    | .fault r => .fault r
    | .refused r => .refused r

/-- A run with the response list `r_i` of each command beside its word `w_i` (R243). -/
def trace (ex : Meaning) : List Word16 → State → List (Word16 × List Word16)
  | [], _ => []
  | w :: ws, s =>
    match runWord ex w s with
    | .next t => (w, newResponses s t) :: trace ex ws t
    | .fault _ => []
    | .refused _ => []

/-- The responses that the commands chosen by `p` give in a run, in order. -/
def responsesOf (p : Word16 → Bool) (tr : List (Word16 × List Word16)) : List Word16 :=
  (tr.filter fun x => p x.1).flatMap fun x => x.2

/-- The commands that write the encode side: `ENCB`, `ENCF`, `CLR` (R132 (d)). -/
def writesEncodeSide (w : Word16) : Bool :=
  match decode w with
  | .ok (.encb _) => true
  | .ok .encf => true
  | .ok .clr => true
  | .ok .nop => false
  | .ok (.decs _) => false
  | .ok .decf => false
  | .ok .rdst => false
  | .error _ => false

/-- The commands that write the decode side: `DECS`, `DECF`, `CLR` (R20, R143 (b)). -/
def writesDecodeSide (w : Word16) : Bool :=
  match decode w with
  | .ok (.decs _) => true
  | .ok .decf => true
  | .ok .clr => true
  | .ok .nop => false
  | .ok (.encb _) => false
  | .ok .encf => false
  | .ok .rdst => false
  | .error _ => false

/-- The commands of an encode stream of the bytes `B`: the pseudo-instruction `ENCODE` (R92). -/
def encodeStream (B : List Byte) : List Instr := B.map .encb ++ [.encf]

/-- The commands of a decode stream of the characters `S`: the pseudo-instruction `DECODE` (R93). -/
def decodeStream (S : List Byte) : List Instr := S.map .decs ++ [.decf]

/-- The command words of a list of instructions (R91). -/
def words (is : List Instr) : List Word16 := is.map encode

end Sys2Proof.Machine
end

