-- ==== Sys2Proof/Machine/Assembler.lean ====
section
/-! DEFINITION. The assembler notation (spec/30_encoding.md R91 to R93): one command per line, numbers,
quoted characters, comments, `.word`, and the pseudo-instructions `ENCODE` and `DECODE`. It is no part
of the hardware; R91 defines it, so the model does. What R91 leaves open is log entry 14. -/

namespace Sys2Proof.Machine

/-- What a line is made of. -/
inductive Token where
  /-- A mnemonic or a number. -/
  | word (cs : List Char)
  /-- A character between single quotes. -/
  | quoted (c : Char)
  /-- The characters between double quotes. -/
  | text (cs : List Char)
  | comma
  deriving DecidableEq, Repr

/-- Where the scanner stands: between or inside a word, or inside double quotes; what it has read of
it so far, last character first. -/
inductive LexMode where
  | plain (acc : List Char)
  | inText (acc : List Char)
  deriving DecidableEq, Repr

/-- The word read so far, if any, before the tokens `ts`. -/
def flush (acc : List Char) (ts : List Token) : List Token :=
  if acc = [] then ts else .word acc.reverse :: ts

/-- The tokens of a line; `none` where it is malformed. Text from `;` to the end of the line is a
comment (R91). DESIGN CHOICE (log entry 14), where R91 is silent: a quoted `;` starts no comment; blanks
and tabs only end a word, so none is needed before a quote, a comma or a `;` (`DECS'G'` is `DECS 'G'`),
and any number of them may stand anywhere between tokens. -/
def lex : List Char → LexMode → Option (List Token)
  | [], .plain acc => some (flush acc [])
  | [], .inText _ => none
  | '"' :: rest, .inText acc => (lex rest (.plain [])).map (.text acc.reverse :: ·)
  | c :: rest, .inText acc => lex rest (.inText (c :: acc))
  | '\'' :: c :: '\'' :: rest, .plain acc =>
    (lex rest (.plain [])).map fun ts => flush acc (.quoted c :: ts)
  | c :: rest, .plain acc =>
    if c = ';' then some (flush acc [])
    else if c = ' ' ∨ c = '\t' then (lex rest (.plain [])).map (flush acc)
    else if c = ',' then (lex rest (.plain [])).map fun ts => flush acc (.comma :: ts)
    else if c = '"' then (lex rest (.inText [])).map (flush acc)
    else if c = '\'' then none
    else lex rest (.plain (c :: acc))

/-- The value of a hexadecimal digit. -/
def hexDigit (c : Char) : Option Nat :=
  if '0' ≤ c ∧ c ≤ '9' then some (c.toNat - 48)
  else if 'A' ≤ c ∧ c ≤ 'F' then some (c.toNat - 55)
  else if 'a' ≤ c ∧ c ≤ 'f' then some (c.toNat - 87)
  else none

/-- The value of a decimal digit. -/
def decDigit (c : Char) : Option Nat :=
  if '0' ≤ c ∧ c ≤ '9' then some (c.toNat - 48) else none

/-- The value of a numeral in a base, most significant digit first, from the value `acc` read so far. -/
def numeral (base : Nat) (digit : Char → Option Nat) : List Char → Nat → Option Nat
  | [], acc => some acc
  | c :: cs, acc =>
    match digit c with
    | some d => numeral base digit cs (acc * base + d)
    | none => none

/-- A number: hexadecimal with prefix `0x`, or decimal (R91). -/
def number : List Char → Option Nat
  | [] => none
  | ['0', 'x'] => none
  | '0' :: 'x' :: h :: hs => numeral 16 hexDigit (h :: hs) 0
  | c :: cs => numeral 10 decDigit (c :: cs) 0

/-- An operand: a number 0..255, or a printable ASCII character in single quotes (R91; the printable
range is that of R52). -/
def operand : Token → Option Byte
  | .word cs =>
    match number cs with
    | some v => if v ≤ 255 then some (BitVec.ofNat 8 v) else none
    | none => none
  | .quoted c => if 0x21 ≤ c.toNat ∧ c.toNat ≤ 0x7E then some (BitVec.ofNat 8 c.toNat) else none
  | .text _ => none
  | .comma => none

/-- The operand list of a pseudo-instruction: none, operands with commas between them, or one text in
double quotes (R92, R93). -/
def operands : List Token → Option (List Byte)
  | [] => some []
  | [.text cs] =>
    if cs.all (fun c => decide (c.toNat ≤ 0x7F)) then some (cs.map fun c => BitVec.ofNat 8 c.toNat)
    else none
  | [t] => (operand t).map fun b => [b]
  | t :: .comma :: t' :: ts =>
    match operand t, operands (t' :: ts) with
    | some b, some bs => some (b :: bs)
    | _, _ => none
  | _ :: _ :: _ => none

/-- The word of `.word 0xHHHH` (R91). -/
def rawWord : List Char → Option Word16
  | ['0', 'x', a, b, c, d] => (numeral 16 hexDigit [a, b, c, d] 0).map (BitVec.ofNat 16)
  | _ => none

/-- The instructions of a line that is a command or a pseudo-instruction (R91, R92, R93). -/
def lineInstrs (name : List Char) (args : List Token) : Option (List Instr) :=
  match String.ofList name, args with
  | "NOP", [] => some [.nop]
  | "CLR", [] => some [.clr]
  | "ENCF", [] => some [.encf]
  | "DECF", [] => some [.decf]
  | "RDST", [] => some [.rdst]
  | "ENCB", [t] => (operand t).map fun b => [.encb b]
  | "DECS", [t] => (operand t).map fun c => [.decs c]
  | "ENCODE", ts => (operands ts).map encodeStream
  | "DECODE", ts => (operands ts).map decodeStream
  | _, _ => none

/-- The words of one line; none for a line that holds nothing but a comment (R91). DESIGN CHOICE (log
entry 14): R91 does not say what a blank line is; it gives no word, like a comment line. -/
def assembleLine (line : List Char) : Option (List Word16) :=
  match lex line (.plain []) with
  | none => none
  | some [] => some []
  | some [.word ['.', 'w', 'o', 'r', 'd'], .word cs] => (rawWord cs).map fun w => [w]
  | some (.word name :: args) => (lineInstrs name args).map words
  | some _ => none

/-- The words of a program, line by line; none of them if a line is malformed (log entry 14). -/
def assemble : List (List Char) → Option (List Word16)
  | [] => some []
  | l :: ls =>
    match assembleLine l, assemble ls with
    | some ws, some rest => some (ws ++ rest)
    | _, _ => none

end Sys2Proof.Machine
end

