-- ==== Sys2Proof/Machine/Reference.lean ====
section
/-! DEFINITION. The whole-buffer functions `Encode` and `Decode` (spec/44_stream_transform.md R170,
R171), written from those rules and not from the commands: no register, no step, no datapath
function of `Datapath` occurs in them. -/

namespace Sys2Proof.Machine

/-- The block value of a list of bytes, most significant first: `b_1*256^(n-1) + ... + b_n` (R55, R170). -/
def blockValue : List Byte → Nat
  | [] => 0
  | b :: bs => b.toNat * 256 ^ bs.length + blockValue bs

/-- The group value of a list of digits, most significant first: `d_1*60^(m-1) + ... + d_m` (R56, R171). -/
def groupValue : List Digit → Nat
  | [] => 0
  | d :: ds => d.val * 60 ^ ds.length + groupValue ds

/-- The `K` digits of `v`, most significant first: `(v div 60^(K-1-j)) mod 60` (R170). -/
def digitsOf (v K : Nat) : List Digit := (List.range K).map fun j => remainder60 (v / 60 ^ (K - 1 - j))

/-- The `n` bytes of `v`, most significant first (R117, R171). -/
def bytesOf (v n : Nat) : List Byte :=
  (List.range n).map fun i => BitVec.ofNat 8 (v / 256 ^ (n - 1 - i))

/-- Entry `m` of the partition of a list into runs of `k` (R57): elements `km .. km+k-1`. -/
def chunk {α : Type} (k m : Nat) (l : List α) : List α := (l.drop (k * m)).take k

/-- The `K` symbols of one block (R170). -/
def encodeBlock (A : Alphabet) (block : List Byte) (K : Nat) : List Byte :=
  (digitsOf (blockValue block) K).map (alpha A)

/-- `KTAB[r]` as a number, for the trailing block of `r` bytes (R51). -/
def partialLen (r : Nat) : Nat := ((ktab r).getD 0).toNat

/-- `Encode(B)` (R170). -/
def encodeBuffer (A : Alphabet) (B : List Byte) : List Byte :=
  ((List.range (B.length / 8)).flatMap fun m => encodeBlock A (chunk 8 m B) 11) ++
    if B.length % 8 ≠ 0 then
      encodeBlock A (B.drop (8 * (B.length / 8))) (partialLen (B.length % 8))
    else []

/-- The value of one group of characters (R171). -/
def charsValue (A : Alphabet) (g : List Byte) : Nat := groupValue (g.map fun c => (inv A c).value)

/-- Steps 3 to 5 of `Decode` on the groups left to right, each with the byte count of its block (R171). -/
def decodeGroups (A : Alphabet) : List (List Byte × Nat) → Except DecodeError (List Byte)
  | [] => .ok []
  | (g, n) :: gs =>
    if 2 ^ (8 * n) ≤ charsValue A g then .error .valueOutOfRange
    else
      match decodeGroups A gs with
      | .ok out => .ok (bytesOf (charsValue A g) n ++ out)
      | .error e => .error e

/-- The full groups of a character sequence, left to right (R57). -/
def fullGroups (S : List Byte) : List (List Byte) :=
  (List.range (S.length / 11)).map fun m => chunk 11 m S

/-- `Decode(S)` (R171): all characters, then the length, then the values. -/
def decodeBuffer (A : Alphabet) (S : List Byte) : Except DecodeError (List Byte) :=
  match S.find? fun c => !(inv A c).valid with
  | some c => .error (.invalidCharacter c)
  | none =>
    match kinv (S.length % 11) with
    | none => .error .invalidLength
    | some e =>
      if e.valid = false then .error .invalidLength
      else
        decodeGroups A (((fullGroups S).map fun g => (g, 8)) ++
          if S.length % 11 ≠ 0 then [(S.drop (11 * (S.length / 11)), e.n.toNat)] else [])

/-- A full group is free of defects: all its characters are symbols and its value is below 2^64. -/
def groupSound (A : Alphabet) (g : List Byte) : Bool :=
  (g.all fun c => (inv A c).valid) && decide (charsValue A g < 2 ^ 64)

/-- The bytes of the full groups that lie wholly before the first defect met in stream order (R173 (e)). -/
def provisionalBytes (A : Alphabet) (S : List Byte) : List Byte :=
  ((fullGroups S).takeWhile (groupSound A)).flatMap fun g => bytesOf (charsValue A g) 8

/-- The verdict and the `data` of the `FIN` that reports the result of `Decode` (R173). -/
def verdictOf : Except DecodeError (List Byte) → BitVec 4 × Byte
  | .ok _ => (0#4, 0#8)
  | .error e => ((errorCode e).setWidth 4, errorInfo e)

/-- The bytes that the block emits before that `FIN` (R173 (a), (e)). -/
def emittedBytes (A : Alphabet) (S : List Byte) : List Byte :=
  match decodeBuffer A S with
  | .ok out => out
  | .error _ => provisionalBytes A S

end Sys2Proof.Machine
end

