-- ==== Sys2Proof/Machine/HostSide.lean ====
section
/-! DEFINITION. What the host does with the response words (spec/44_stream_transform.md R182, R183;
spec/70_reset_and_hazards.md R234, R236). The commands it issues are `encodeStream` and `decodeStream`. -/

namespace Sys2Proof.Machine

/-- The size of the output the host reserves to encode `L` bytes: `11*(L div 8) + KTAB[L mod 8]` (R182 (2)). -/
def encodedLength (L : Nat) : Nat := 11 * (L / 8) + partialLen (L % 8)

/-- The provisional output the host reserves to decode `L` characters: `8*(L div 11) + 7` (R183 (2)). -/
def decodedBound (L : Nat) : Nat := 8 * (L / 11) + 7

/-- The direction of a stream (R236). -/
inductive Side where
  | encode
  | decode
  deriving DecidableEq, Repr

/-- The stream that a command word finishes: `ENCF` and `DECF` answer with a `FIN` word, no other
command does (R86, R131, R142). -/
def finishedSide (w : Word16) : Option Side :=
  match decode w with
  | .ok .encf => some .encode
  | .ok .decf => some .decode
  | .ok .nop => none
  | .ok .clr => none
  | .ok (.encb _) => none
  | .ok (.decs _) => none
  | .ok .rdst => none
  | .error _ => none

/-- The streams that the issued command words finish, in order. Responses come in command order (R239),
so the `FIN` words do too: the host tells the two kinds of `FIN` apart by this order (R236). -/
def finishOrder (issued : List Word16) : List Side := issued.filterMap finishedSide

/-- The command words among the host's acts, in order. -/
def issuedWords : List HostEvent → List Word16
  | [] => []
  | .command w :: es => w :: issuedWords es
  | .takeResponse :: es => issuedWords es
  | .reset :: es => issuedWords es

/-- "append the `data` field of every `SYM` response to the output, in order, until the `FIN` word
arrives" (R182 (4)): the `FIN` of the encode stream. `order` is the `finishOrder` of the commands that
the words answer, from the first command of the stream on; the `FIN` of an interleaved decode stream is
passed over (R172, R236). `none`: the stream's `FIN` has not arrived, the output is not complete. -/
def collectSymbols (order : List Side) : List Word16 → Option (List Byte)
  | [] => none
  | w :: ws =>
    match readResponse w with
    | some (.sym c) => (collectSymbols order ws).map (c :: ·)
    | some (.fin _ _) =>
      match order with
      | .encode :: _ => some []
      | .decode :: later => collectSymbols later ws
      | [] => none
    | some (.byte _) => collectSymbols order ws
    | some (.stat _) => collectSymbols order ws
    | some .illc => collectSymbols order ws
    | none => collectSymbols order ws

/-- What a decode stream gave the host: the provisional bytes, the verdict and its data. -/
structure DecodeReport where
  bytes : List Byte
  verdict : BitVec 4
  data : Byte
  deriving DecidableEq, Repr

/-- "append the `data` field of every `BYTE` response to the provisional output until the `FIN` word
arrives" (R183 (4)): the `FIN` of the decode stream, with `order` as in `collectSymbols`. The `FIN` of
an interleaved encode stream is passed over (R173, R236) and is no verdict. -/
def collectBytes (order : List Side) : List Word16 → Option DecodeReport
  | [] => none
  | w :: ws =>
    match readResponse w with
    | some (.byte b) => (collectBytes order ws).map fun r => { r with bytes := b :: r.bytes }
    | some (.fin v d) =>
      match order with
      | .decode :: _ => some ⟨[], v, d⟩
      | .encode :: later => collectBytes later ws
      | [] => none
    | some (.sym _) => collectBytes order ws
    | some (.stat _) => collectBytes order ws
    | some .illc => collectBytes order ws
    | none => collectBytes order ws

/-- R183 (5), R234: with verdict 0 the provisional output is the result; otherwise all of it is
discarded and the error named by the verdict is returned, with `data`. -/
def acceptReport (r : DecodeReport) : Except (BitVec 4 × Byte) (List Byte) :=
  if r.verdict = 0#4 then .ok r.bytes else .error (r.verdict, r.data)

end Sys2Proof.Machine
end

