-- ==== Sys2Proof/Machine/Ports.lean ====
section
/-! DEFINITION. The ports of the block at one rising edge of `clk`, and the words that move at it
(spec/70_reset_and_hazards.md R230, R233). Nothing else about the signals is architectural (R233). -/

namespace Sys2Proof.Machine

/-- The values of the signals of R233 at one rising edge of `clk`. `rsp_valid` and `rsp` are the
block's: it offers its oldest response word or none (`rspValid`). -/
structure Edge where
  rst : Bool
  cmdValid : Bool
  cmdReady : Bool
  cmd : Word16
  rspValid : Bool
  rspReady : Bool
  deriving DecidableEq, Repr

/-- The acts of the host at an edge: "A word moves on a channel at a rising edge of `clk` at which
both its `valid` and its `ready` are 1 and `rst` is 0" (R233); with `rst` 1 the block is reset and
takes no command (R230). The response word that moves was produced before the command that moves at
the same edge, so it is told first (DEDUCED, log entry 15). -/
def edgeEvents (e : Edge) : List HostEvent :=
  if e.rst then [.reset]
  else
    (if e.rspValid && e.rspReady then [.takeResponse] else []) ++
      (if e.cmdValid && e.cmdReady then [.command e.cmd] else [])

end Sys2Proof.Machine
end

