-- ==== Sys2Proof/Machine/AnyAlphabet.lean ====
section
/-! DEFINITION. The machine of any legal value of `ALPHABET` (spec/00_scope.md R7: "The model therefore
takes `ALPHABET` as an argument"; spec/10_state.md R33). `exec` and `step` are the case of the default. -/

namespace Sys2Proof.Machine

/-- What an instruction does to a state in the instance whose `ALPHABET` is `A`. -/
def execWith (A : Alphabet) (i : Instr) (s : State) : Host.Outcome State Fault Refusal :=
  match i with
  | .nop => execNop s
  | .clr => execClr s
  | .encb b => encodeByte A b s
  | .encf => encodeFinish A s
  | .decs c => decodeChar A c s
  | .decf => decodeFinish s
  | .rdst => execRdst s

/-- One step of the instance whose `ALPHABET` is `A`. -/
def stepWith (A : Alphabet) (s : State) : Host.Outcome State Fault Refusal := stepBy (execWith A) s

end Sys2Proof.Machine
end

