-- ==== Sys2Proof/Safety.lean ====
section
/-! DEFINITION. What a legal state and a safe run are, in the terms the statements use
(spec/10_state.md R30; spec/60_exceptions.md R200). -/

namespace Sys2Proof.Machine

/-- The invariants between commands, (a) to (f) of R30, and what R27 says `ECHR` holds when `ERR` = 1:
a code outside the Alphabet. -/
abbrev Inv (A : Alphabet) (s : State) : Prop :=
  s.nb.toNat ≤ 7 ∧
  s.eacc.toNat < 2 ^ (8 * s.nb.toNat) ∧
  s.ns.toNat ≤ 10 ∧
  (s.err = 0#3 ∨ s.err = 1#3 ∨ s.err = 3#3) ∧
  (s.err = 0#3 → s.dacc.toNat < 60 ^ s.ns.toNat) ∧
  (s.err = 3#3 → s.dacc = 0#65) ∧
  (s.err ≠ 1#3 → s.echr = 0#8) ∧
  (s.err = 1#3 → (inv A s.echr).valid = false)

/-- No encode stream is in progress (R172, R182 (1)). -/
abbrev EncodeIdle (s : State) : Prop := s.nb = 0#4

/-- No decode stream is in progress and none has an error recorded (R173, R183 (1)). -/
abbrev DecodeIdle (s : State) : Prop := s.ns = 0#4 ∧ s.err = 0#3

/-- A step or a run answers a next state: it neither faults nor is refused (R200, R238). -/
def Answers (o : Host.Outcome State Fault Refusal) : Prop := ∃ t, o = .next t

/-- The host's acts `es` still to come are all command words `ws`. -/
def commandsOf (ws : List Word16) : List HostEvent := ws.map .command

end Sys2Proof.Machine
end

