-- ==== Sys2Proof/Certificates/Slice0/Obligations.lean ====
section
/-! DEFINITION. The statements for the provers, from the numbered rules of spec/. `A` ranges over every
legal value of `ALPHABET` (R7, R52); `exec`, `step` and `core` are the instance of the default. -/

open Sys2Proof Sys2Proof.Machine

/-! ## Reset, steps and the channels -/

/-- R31: "After reset the state is": every register 0, and "The response channel is empty after reset".
`DIG` is unspecified there and is not mentioned. -/
def Obligations.ResetRegistersAreZero : Prop :=
  State.reset.eacc = 0#64 ∧ State.reset.nb = 0#4 ∧ State.reset.dacc = 0#65 ∧
  State.reset.ns = 0#4 ∧ State.reset.err = 0#3 ∧ State.reset.echr = 0#8 ∧
  State.reset.ill = 0#1 ∧ State.reset.rsp = []

/-- R230: reset puts every architectural register at its value of R31 and empties the response
channel, takes no command, and leaves what the host already has. What `DIG` then holds is not said. -/
def Obligations.ResetEventClearsTheBlock : Prop :=
  ∀ (s : State) (rest : List HostEvent), s.host = .reset :: rest →
    ∃ dig, step s = .next
      { eacc := 0#64, nb := 0#4, dacc := 0#65, ns := 0#4, err := 0#3, echr := 0#8, ill := 0#1,
        dig := dig, rsp := [], delivered := s.delivered, host := rest }

/-- R238, R239: the command word next on the channel is executed as the instruction it decodes to, on
the state without that word, and the step adds nothing to it. -/
def Obligations.StepRunsTheDecodedInstruction : Prop :=
  ∀ (s : State) (w : Word16) (rest : List HostEvent) (i : Instr),
    s.host = .command w :: rest → decode w = .ok i → step s = exec i { s with host := rest }

/-- R163: a word that matches no row of R84 sets `ILL` and gives one `ILLC`, 0xF000; no other register
changes. -/
def Obligations.IllegalWordSetsTheFlag : Prop :=
  ∀ (s : State) (w : Word16) (rest : List HostEvent),
    s.host = .command w :: rest → (∀ row ∈ opcodeTable, w &&& row.mask ≠ row.matchWord) →
    step s = .next { s with host := rest, ill := 1#1, rsp := s.rsp ++ [0xF000#16] }

/-- R233, R214: a taken word leaves the response channel, oldest first; with none on offer nothing
moves; a block with which the host does nothing holds its state (the model's step for it, log entry 9). -/
def Obligations.HostTakesTheOldestResponse : Prop :=
  (∀ (s : State) (rest : List HostEvent) (w : Word16) (ws : List Word16),
    s.host = .takeResponse :: rest → s.rsp = w :: ws →
    step s = .next { s with host := rest, rsp := ws, delivered := s.delivered ++ [w] }) ∧
  (∀ (s : State) (rest : List HostEvent), s.host = .takeResponse :: rest → s.rsp = [] →
    step s = .next { s with host := rest }) ∧
  (∀ s : State, s.host = [] → step s = .next s)

/-- R233: "The block never drops, duplicates or reorders a word on either channel", short of a reset:
what has moved followed by what is on offer only grows at its end. -/
def Obligations.ResponsesAreNeverDroppedOrReordered : Prop :=
  ∀ (A : Alphabet) (s t : State), stepWith A s = .next t → s.host.head? ≠ some .reset →
    ∃ new, t.delivered ++ t.rsp = s.delivered ++ s.rsp ++ new ∧
      (new ≠ [] → ∃ w, s.host.head? = some (.command w))

/-- R243, R239: the machine, given command words on its channel, runs them one after the other. That it
takes each of them although no response is taken between them is the model's (log entry 4, R237). -/
def Obligations.HostQueueRunsAsTheCommandSequence : Prop :=
  ∀ (ws : List Word16) (rest : List HostEvent) (s : State), s.host = commandsOf ws ++ rest →
    Host.Core.run core ws.length s = runWords exec ws { s with host := rest }

/-- R7, R33: the machine of the interface is the instance of the default `ALPHABET`. -/
def Obligations.ExecIsTheDefaultInstance : Prop :=
  (∀ (i : Instr) (s : State), exec i s = execWith alphabet i s) ∧
  (∀ s : State, step s = stepWith alphabet s)

/-! ## Command words and response words -/

/-- R84, R80: decoding the word of an instruction gives the instruction back, and a word decodes to an
instruction only if it is that instruction's word: no bit of a command word is dropped. -/
def Obligations.DecodeAndEncodeAgree : Prop :=
  (∀ i : Instr, decode (encode i) = .ok i) ∧
  (∀ (w : Word16) (i : Instr), decode w = .ok i → encode i = w)

/-- R94, R84: the decoding procedure and the match/mask table select the same command for every word,
with `arg` as the operand, and at most one row matches a word. -/
def Obligations.DecodeSelectsTheTableRow : Prop :=
  (∀ (w : Word16) (row : OpcodeRow), row ∈ opcodeTable →
    (w &&& row.mask = row.matchWord ↔ ∃ i, decode w = .ok i ∧ rowOf i = row)) ∧
  (∀ w : Word16, (∃ e, decode w = .error e) ↔
    ∀ row ∈ opcodeTable, w &&& row.mask ≠ row.matchWord) ∧
  (∀ (w : Word16) (i : Instr), decode w = .ok i → i = .encb (argField w) ∨ i = .decs (argField w) ∨
    argField w = 0#8) ∧
  (∀ (w : Word16) (r1 r2 : OpcodeRow), r1 ∈ opcodeTable → r2 ∈ opcodeTable →
    w &&& r1.mask = r1.matchWord → w &&& r2.mask = r2.matchWord → r1 = r2)

/-- R85: the illegal words are exactly those with `op` in 0x7..0xF, those with `op` in 0x0..0x6 and
`zero` not 0, and those with `op` in 0, 1, 3, 5, 6, `zero` = 0 and `arg` not 0. -/
def Obligations.IllegalWordsAreTheThreeClasses : Prop :=
  ∀ w : Word16, (∃ e, decode w = .error e) ↔
    (7 ≤ (opField w).toNat ∨
     ((opField w).toNat ≤ 6 ∧ zeroField w ≠ 0#4) ∨
     (opField w ∈ [0#4, 1#4, 3#4, 5#4, 6#4] ∧ zeroField w = 0#4 ∧ argField w ≠ 0#8))

/-- R84: words written out bit by bit from the table. -/
def Obligations.SampleWordsDecode : Prop :=
  decode 0b0000000000000000#16 = .ok .nop ∧
  decode 0b0001000000000000#16 = .ok .clr ∧
  decode 0b0010000001001000#16 = .ok (.encb 0x48#8) ∧
  decode 0b0011000000000000#16 = .ok .encf ∧
  decode 0b0100000001000111#16 = .ok (.decs 0x47#8) ∧
  decode 0b0101000000000000#16 = .ok .decf ∧
  decode 0b0110000000000000#16 = .ok .rdst

/-- R86, R87: the host reads back from a response word exactly what was emitted, and no word of another
shape reads as a response. -/
def Obligations.ResponseWordsReadBack : Prop :=
  (∀ r : Response, readResponse (responseWord r) = some r) ∧
  (∀ (w : Word16) (r : Response), readResponse w = some r → responseWord r = w)

/-- R92, R93: `ENCODE` and `DECODE` are `ENCB x1`, ..., `ENCB xL`, `ENCF` and `DECS x1`, ..., `DECS xL`,
`DECF`: L + 1 words each. -/
def Obligations.PseudoInstructionsExpand : Prop :=
  ∀ xs : List Byte,
    words (encodeStream xs) = xs.map (fun x => 0x2000#16 ||| x.setWidth 16) ++ [0x3000#16] ∧
    words (decodeStream xs) = xs.map (fun x => 0x4000#16 ||| x.setWidth 16) ++ [0x5000#16] ∧
    (words (encodeStream xs)).length = xs.length + 1 ∧
    (words (decodeStream xs)).length = xs.length + 1

/-! ## Tables and datapath -/

/-- R51: the entries of `KTAB`, and "k(n) is the smallest integer such that 60^k(n) ≥ 2^(8n)", with
`60^(k-1) < 2^(8n) < 60^k` in every row. -/
def Obligations.PartialLengthsAreMinimal : Prop :=
  (List.range 9).map ktab =
    [some 0#4, some 2#4, some 3#4, some 5#4, some 6#4, some 7#4, some 9#4, some 10#4, some 11#4] ∧
  (∀ (n : Nat) (k : BitVec 4), 1 ≤ n → n ≤ 8 → ktab n = some k →
    60 ^ (k.toNat - 1) < 2 ^ (8 * n) ∧ 2 ^ (8 * n) < 60 ^ k.toNat ∧
    ∀ j, 2 ^ (8 * n) ≤ 60 ^ j → k.toNat ≤ j)

/-- R54: `KINV` is the inverse of `KTAB` on 0..7, and 1, 4 and 8 are the invalid counts. -/
def Obligations.TrailingCountsInvertTheTable : Prop :=
  (∀ n, n ≤ 7 → ∃ k : BitVec 4, ktab n = some k ∧ kinv k.toNat = some ⟨true, BitVec.ofNat 4 n⟩) ∧
  (∀ (r : Nat) (e : KinvEntry), kinv r = some e → e.valid = true →
    ktab e.n.toNat = some (BitVec.ofNat 4 r)) ∧
  (∀ r, r ≤ 10 → (kinv r = some ⟨false, 0#4⟩ ↔ r = 1 ∨ r = 4 ∨ r = 8))

/-- R53: `INV` is the inverse of `ALPHA`: valid with the digit for the 60 symbols, (0, 0) for every other
code; under the default `ALPHABET` the valid codes are the five ranges of R53. -/
def Obligations.SymbolTableIsInverted : Prop :=
  (∀ (A : Alphabet) (d : Digit), inv A (alpha A d) = ⟨true, d⟩) ∧
  (∀ (A : Alphabet) (c : Byte), (∀ d : Digit, alpha A d ≠ c) → inv A c = ⟨false, 0⟩) ∧
  (∀ c : Byte, inv alphabet c =
    if 0x30 ≤ c.toNat ∧ c.toNat ≤ 0x39 then ⟨true, remainder60 (c.toNat - 0x30)⟩
    else if 0x41 ≤ c.toNat ∧ c.toNat ≤ 0x48 then ⟨true, remainder60 (c.toNat - 0x41 + 10)⟩
    else if 0x4A ≤ c.toNat ∧ c.toNat ≤ 0x4E then ⟨true, remainder60 (c.toNat - 0x4A + 18)⟩
    else if 0x50 ≤ c.toNat ∧ c.toNat ≤ 0x5A then ⟨true, remainder60 (c.toNat - 0x50 + 23)⟩
    else if 0x61 ≤ c.toNat ∧ c.toNat ≤ 0x7A then ⟨true, remainder60 (c.toNat - 0x61 + 34)⟩
    else ⟨false, 0⟩)

/-- R110: `ShiftIn(acc, b)` is `acc*256 + b`: no bit is lost when `acc < 2^56`; over the bytes of a
block, from 0, it yields the block value, below `2^(8n)`. -/
def Obligations.ShiftInIsExact : Prop :=
  (∀ (acc : BitVec 64) (b : Byte), acc.toNat < 2 ^ 56 →
    (shiftIn acc b).toNat = acc.toNat * 256 + b.toNat) ∧
  (∀ bs : List Byte, bs.length ≤ 8 →
    (bs.foldl shiftIn 0#64).toNat = blockValue bs ∧ blockValue bs < 2 ^ (8 * bs.length))

/-- R112, R121: the closed form of `ToDigits`: `DIG[j] = (v div 60^(K-1-j)) mod 60` for `j` in 0..K-1,
the other entries as they were; the working value ends as `v div 60^K`, so 0 when `v < 60^K`, and
then the digits spell `v`. -/
def Obligations.ToDigitsClosedForm : Prop :=
  ∀ (K v : Nat) (dig : Vector Digit 11), K ≤ 11 →
    (toDigits K v dig).1 = v / 60 ^ K ∧
    (∀ (j : Nat) (hj : j < 11), (toDigits K v dig).2[j] =
      if j < K then remainder60 (v / 60 ^ (K - 1 - j)) else dig[j]) ∧
    (v < 60 ^ K → (toDigits K v dig).1 = 0 ∧
      groupValue (readDigits K (toDigits K v dig).2) = v)

/-- R114: `Horner(acc, d)` is `acc*60 + d`, exact and below 60^11, when `acc < 60^10`; over the digits
of a group, from 0, it yields the group value, after `m` digits below `60^m`. -/
def Obligations.HornerIsExact : Prop :=
  (∀ (acc : BitVec 65) (d : Digit), acc.toNat < 60 ^ 10 →
    (horner acc d).toNat = acc.toNat * 60 + d.val ∧ (horner acc d).toNat < 60 ^ 11) ∧
  (∀ ds : List Digit, ds.length ≤ 11 →
    (ds.foldl horner 0#65).toNat = groupValue ds ∧ groupValue ds < 60 ^ ds.length)

/-- R122: folding `Horner` over `ToDigits(v, K)` gives `v`, `ToDigits` of the fold of `K` digits gives
them back, and a group whose value fits `n` bytes is the group of the block `ToBytes(v, n)`. -/
def Obligations.HornerAndToDigitsAreInverse : Prop :=
  (∀ (K v : Nat) (dig : Vector Digit 11), 1 ≤ K → K ≤ 11 → v < 60 ^ K →
    ((readDigits K (toDigits K v dig).2).foldl horner 0#65).toNat = v) ∧
  (∀ (ds : List Digit) (dig : Vector Digit 11), 1 ≤ ds.length → ds.length ≤ 11 →
    readDigits ds.length (toDigits ds.length (ds.foldl horner 0#65).toNat dig).2 = ds) ∧
  (∀ (ds : List Digit) (n : Nat) (K : BitVec 4), 1 ≤ n → n ≤ 8 → ktab n = some K →
    ds.length = K.toNat → (ds.foldl horner 0#65).toNat < 2 ^ (8 * n) →
    digitsOf (blockValue (toBytes (ds.foldl horner 0#65) n)) K.toNat = ds)

/-- R116: `InRange(v, n)` is `v < 2^(8n)`, that is `v[64:8n] = 0`; `2^(8n) - 1` is in range and `2^(8n)`
is not. -/
def Obligations.RangeCheckIsStrict : Prop :=
  ∀ n, 1 ≤ n → n ≤ 8 →
    (∀ v : BitVec 65, (inRange v n = true ↔ v.toNat < 2 ^ (8 * n)) ∧
      (inRange v n = true ↔ v >>> (8 * n) = 0#65)) ∧
    inRange (BitVec.ofNat 65 (2 ^ (8 * n) - 1)) n = true ∧
    inRange (BitVec.ofNat 65 (2 ^ (8 * n))) n = false

/-- R117, R55: `ToBytes(v, n)` is the `n` bytes `v[8n-1:8n-8], ..., v[7:0]`, most significant first, and
they spell `v`. -/
def Obligations.ToBytesIsBigEndian : Prop :=
  ∀ (v : BitVec 65) (n : Nat), 1 ≤ n → n ≤ 8 → v.toNat < 2 ^ (8 * n) →
    (toBytes v n).length = n ∧
    (∀ i, i < n → (toBytes v n)[i]? = some (v.extractLsb' (8 * (n - 1 - i)) 8)) ∧
    blockValue (toBytes v n) = v.toNat

/-! ## What each instruction does -/

/-- R160: `NOP` changes nothing and answers nothing. -/
def Obligations.NopDoesNothing : Prop :=
  ∀ s : State, exec .nop s = .next s

/-- R161: `CLR` gives the reset state of R31 but for `DIG`, which is not touched, and the channels; no
response is produced or withdrawn; no other instruction clears `ILL`. -/
def Obligations.ClrGivesTheResetState : Prop :=
  (∀ s : State, exec .clr s = .next
    { s with eacc := 0#64, nb := 0#4, dacc := 0#65, ns := 0#4, err := 0#3, echr := 0#8, ill := 0#1 }) ∧
  (∀ s : State, exec .clr s = .next { State.reset with
    dig := s.dig, rsp := s.rsp, delivered := s.delivered, host := s.host }) ∧
  (∀ (i : Instr) (s t : State), exec i s = .next t → s.ill = 1#1 → t.ill = 0#1 → i = .clr)

/-- R162, R89: `RDST` writes nothing and gives the one word
`0x4000 OR (ILL << 11) OR (ERR << 8) OR (NS << 4) OR NB`. -/
def Obligations.RdstReportsTheStatus : Prop :=
  ∀ s : State, ∃ w : Word16, exec .rdst s = .next { s with rsp := s.rsp ++ [w] } ∧
    w.toNat = 0x4000 + s.ill.toNat * 2 ^ 11 + s.err.toNat * 2 ^ 8 + s.ns.toNat * 2 ^ 4 + s.nb.toNat

/-- R130: `ENCB b` takes the byte; when it is the 8th of its block, it emits the 11 symbols of the block
value, most significant digit first, leaves the digits in `DIG`, and clears `EACC` and `NB`. -/
def Obligations.EncbTakesAByte : Prop :=
  ∀ (b : Byte) (s : State), s.nb.toNat ≤ 7 → s.eacc.toNat < 2 ^ 56 →
    (s.nb.toNat < 7 → exec (.encb b) s = .next
      { s with
        eacc := BitVec.ofNat 64 (s.eacc.toNat * 256 + b.toNat)
        nb := BitVec.ofNat 4 (s.nb.toNat + 1) }) ∧
    (s.nb.toNat = 7 → exec (.encb b) s = .next
      { s with
        eacc := 0#64
        nb := 0#4
        dig := Vector.ofFn fun j : Fin 11 =>
          remainder60 ((s.eacc.toNat * 256 + b.toNat) / 60 ^ (10 - j.val))
        rsp := s.rsp ++ (digitsOf (s.eacc.toNat * 256 + b.toNat) 11).map
          fun d => responseWord (.sym (alpha alphabet d)) })

/-- R131: `ENCF` emits the `KTAB[NB]` symbols of the trailing block, if there is one, then `FIN(0, 0)`,
0x3000; `DIG[0..K-1]` holds the digits; `EACC` and `NB` are clear. -/
def Obligations.EncfFinishesTheStream : Prop :=
  ∀ s : State,
    (s.nb = 0#4 → exec .encf s = .next { s with rsp := s.rsp ++ [0x3000#16] }) ∧
    (∀ K : BitVec 4, 1 ≤ s.nb.toNat → s.nb.toNat ≤ 7 → ktab s.nb.toNat = some K →
      exec .encf s = .next
        { s with
          eacc := 0#64
          nb := 0#4
          dig := Vector.ofFn fun j : Fin 11 =>
            if j.val < K.toNat then remainder60 (s.eacc.toNat / 60 ^ (K.toNat - 1 - j.val))
            else s.dig[j.val]
          rsp := s.rsp ++ (digitsOf s.eacc.toNat K.toNat).map
            (fun d => responseWord (.sym (alpha alphabet d))) ++ [0x3000#16] })

/-- R141, R201: `DECS c` in the dead, drain and clean conditions: ignored once `ERR` = 1; an invalid
character recorded in `ERR` and `ECHR`; counted modulo 11 in drain; accumulated when clean, and at
the 11th symbol either 8 bytes or `ERR` = 3, with `DACC` and `NS` cleared. -/
def Obligations.DecsByCondition : Prop :=
  ∀ (c : Byte) (s : State),
    (s.err = 1#3 → exec (.decs c) s = .next s) ∧
    (s.err = 0#3 ∨ s.err = 3#3 → (inv alphabet c).valid = false →
      exec (.decs c) s = .next { s with err := 1#3, echr := c }) ∧
    (s.err = 3#3 → (inv alphabet c).valid = true →
      exec (.decs c) s = .next { s with ns := BitVec.ofNat 4 ((s.ns.toNat + 1) % 11) }) ∧
    (s.err = 0#3 → (inv alphabet c).valid = true → s.dacc.toNat < 60 ^ 10 → s.ns.toNat < 10 →
      exec (.decs c) s = .next
        { s with
          dacc := BitVec.ofNat 65 (s.dacc.toNat * 60 + (inv alphabet c).value.val)
          ns := BitVec.ofNat 4 (s.ns.toNat + 1) }) ∧
    (s.err = 0#3 → (inv alphabet c).valid = true → s.dacc.toNat < 60 ^ 10 → s.ns.toNat = 10 →
      exec (.decs c) s = .next
        (if s.dacc.toNat * 60 + (inv alphabet c).value.val < 2 ^ 64 then
          { s with
            dacc := 0#65
            ns := 0#4
            rsp := s.rsp ++
              (bytesOf (s.dacc.toNat * 60 + (inv alphabet c).value.val) 8).map
                fun b => responseWord (.byte b) }
        else { s with dacc := 0#65, ns := 0#4, err := 3#3 }))

/-- R142, R202: `DECF` emits the bytes of a trailing group in range, then `FIN` with the verdict
InvalidCharacter over InvalidLength over ValueOutOfRange over success, and clears the decode side. -/
def Obligations.DecfReportsTheVerdict : Prop :=
  ∀ s : State, s.err = 0#3 ∨ s.err = 1#3 ∨ s.err = 3#3 → s.ns.toNat ≤ 10 →
    ∃ out : List Word16,
      exec .decf s = .next
        { s with dacc := 0#65, ns := 0#4, err := 0#3, echr := 0#8, rsp := s.rsp ++ out } ∧
      (s.err = 1#3 → out = [responseWord (.fin 1#4 s.echr)]) ∧
      (s.err ≠ 1#3 → s.ns.toNat = 1 ∨ s.ns.toNat = 4 ∨ s.ns.toNat = 8 → out = [0x3200#16]) ∧
      (s.err = 3#3 → s.ns.toNat ≠ 1 → s.ns.toNat ≠ 4 → s.ns.toNat ≠ 8 → out = [0x3300#16]) ∧
      (s.err = 0#3 → s.ns.toNat = 0 → out = [0x3000#16]) ∧
      (∀ n : BitVec 4, s.err = 0#3 → s.ns.toNat ≠ 0 → kinv s.ns.toNat = some ⟨true, n⟩ →
        out = if s.dacc.toNat < 2 ^ (8 * n.toNat) then
            (bytesOf s.dacc.toNat n.toNat).map (fun b => responseWord (.byte b)) ++ [0x3000#16]
          else [0x3300#16])

/-- The model's own stops (log entry 7; R59 says the spec has none): `ENCF` with `NB` in 9..15 and `DECF`
with `NS` in 11..15 and `ERR` not 1 read a table outside its range. Every other instruction in every
state answers a next state, and so do these two everywhere else. -/
def Obligations.StopsOnlyOutsideTheTables : Prop :=
  (∀ s : State, 9 ≤ s.nb.toNat → exec .encf s = .fault (.noSuchEntry .ktab s.nb.toNat)) ∧
  (∀ s : State, s.err ≠ 1#3 → 11 ≤ s.ns.toNat →
    exec .decf s = .fault (.noSuchEntry .kinv s.ns.toNat)) ∧
  (∀ (i : Instr) (s : State), (i = .encf → s.nb.toNat ≤ 8) →
    (i = .decf → s.err = 1#3 ∨ s.ns.toNat ≤ 10) → Answers (exec i s))

/-- R20, R130, R131: the frame of `ENCB` and `ENCF`: the decode side, `ILL` and what the host has and
plans are unchanged, and responses are only added. -/
def Obligations.EncodeCommandsFrame : Prop :=
  ∀ (b : Byte) (i : Instr) (s t : State), i = .encb b ∨ i = .encf → exec i s = .next t →
    t.dacc = s.dacc ∧ t.ns = s.ns ∧ t.err = s.err ∧ t.echr = s.echr ∧ t.ill = s.ill ∧
    t.delivered = s.delivered ∧ t.host = s.host ∧ ∃ rs, t.rsp = s.rsp ++ rs

/-- R20, R141, R142: the frame of `DECS` and `DECF`: the encode side, `DIG`, `ILL` and what the host has
and plans are unchanged, and responses are only added. -/
def Obligations.DecodeCommandsFrame : Prop :=
  ∀ (c : Byte) (i : Instr) (s t : State), i = .decs c ∨ i = .decf → exec i s = .next t →
    t.eacc = s.eacc ∧ t.nb = s.nb ∧ t.dig = s.dig ∧ t.ill = s.ill ∧
    t.delivered = s.delivered ∧ t.host = s.host ∧ ∃ rs, t.rsp = s.rsp ++ rs

/-- R86: which and how many responses each command gives, and never more than 11. -/
def Obligations.ResponsesPerCommand : Prop :=
  ∀ (A : Alphabet) (i : Instr) (s t : State), Inv A s → execWith A i s = .next t →
    ∃ rs : List Response, t.rsp = s.rsp ++ rs.map responseWord ∧ rs.length ≤ 11 ∧
      match i with
      | .nop => rs = []
      | .clr => rs = []
      | .encb _ => rs = [] ∨ (rs.length = 11 ∧ ∀ r ∈ rs, ∃ d, r = .sym (alpha A d))
      | .encf => ∃ ss, rs = ss ++ [.fin 0#4 0#8] ∧ ss.length = partialLen s.nb.toNat ∧
          ∀ r ∈ ss, ∃ d, r = .sym (alpha A d)
      | .decs _ => rs = [] ∨ (rs.length = 8 ∧ ∀ r ∈ rs, ∃ b, r = .byte b)
      | .decf => ∃ bs v d, rs = bs ++ [.fin v d] ∧ bs.length ≤ 7 ∧ ∀ r ∈ bs, ∃ b, r = .byte b
      | .rdst => ∃ st, rs = [.stat st]

/-! ## Errors -/

/-- R206: `raise E` with code `e`: `ERR` becomes `e` if it was 0 or above `e`, else stays; for code 1,
where that changes `ERR`, `ECHR` becomes the character; nothing else changes. -/
def Obligations.RaiseMergesByPriority : Prop :=
  ∀ (e : DecodeError) (s : State),
    raise e s =
      { s with
        err := if s.err = 0#3 ∨ (errorCode e).toNat < s.err.toNat then errorCode e else s.err
        echr := if errorCode e = 1#3 ∧ s.err ≠ 1#3 then errorInfo e else s.echr }

/-- R140: the only changes of condition are clean to drain, clean to dead and drain to dead, each by a
`DECS`, and any to clean by `DECF`, `CLR` or reset. -/
def Obligations.ErrorConditionTransitions : Prop :=
  ∀ (A : Alphabet) (s t : State), Inv A s → stepWith A s = .next t → t.err ≠ s.err →
    (((s.err = 0#3 ∧ t.err = 3#3) ∨ (s.err = 0#3 ∧ t.err = 1#3) ∨ (s.err = 3#3 ∧ t.err = 1#3)) ∧
      ∃ c : Byte, s.host.head? = some (.command (encode (.decs c)))) ∨
    (t.err = 0#3 ∧
      (s.host.head? = some (.command 0x5000#16) ∨ s.host.head? = some (.command 0x1000#16) ∨
        s.host.head? = some .reset))

/-- R209, R143 (a): from the command that sets `ERR` to the one that clears it, no `BYTE` is emitted. -/
def Obligations.NoBytesAfterAnError : Prop :=
  ∀ (A : Alphabet) (s t : State), Inv A s → stepWith A s = .next t → s.err ≠ 0#3 ∨ t.err ≠ 0#3 →
    ∀ w ∈ newResponses s t, kindField w ≠ 2#4

/-- R29, R163: `ILL` is set by an illegal word only, and cleared by `CLR` and reset only. -/
def Obligations.IllegalFlagIsSticky : Prop :=
  ∀ (A : Alphabet) (s t : State), stepWith A s = .next t → t.ill ≠ s.ill →
    (t.ill = 1#1 ∧ ∃ w e, s.host.head? = some (.command w) ∧ decode w = .error e) ∨
    (t.ill = 0#1 ∧
      (s.host.head? = some (.command 0x1000#16) ∨ s.host.head? = some .reset))

/-- R87, R88, R132 (a): every response word is a symbol of `ALPHABET`, a byte, 0x3000, 0x31cc for a code
`cc` outside `ALPHABET`, 0x3200, 0x3300, a status, or 0xF000. -/
def Obligations.OnlyLegalResponseWords : Prop :=
  ∀ (A : Alphabet) (s t : State), Inv A s → stepWith A s = .next t → ∀ w ∈ newResponses s t,
    (∃ d : Digit, w = responseWord (.sym (alpha A d))) ∨ (∃ b : Byte, w = responseWord (.byte b)) ∨
    w = 0x3000#16 ∨ (∃ c : Byte, (inv A c).valid = false ∧ w = responseWord (.fin 1#4 c)) ∨
    w = 0x3200#16 ∨ w = 0x3300#16 ∨ (∃ st : BitVec 12, w = responseWord (.stat st)) ∨ w = 0xF000#16

/-! ## Whole-machine invariants -/

/-- R30 holds right after reset. -/
def Obligations.ResetStateIsLegal : Prop :=
  ∀ A : Alphabet, Inv A State.reset

/-- R30, R27: (a) to (f), and that a recorded character is outside `ALPHABET`, are kept by every step. -/
def Obligations.EveryStepKeepsTheInvariant : Prop :=
  (∀ s t : State, Inv alphabet s → step s = .next t → Inv alphabet t) ∧
  (∀ (A : Alphabet) (s t : State), Inv A s → stepWith A s = .next t → Inv A t)

/-- R200, R238, R242, R30: from a legal state, for every number of steps and every list of acts of the
host, the model comes to a legal state without a fault or a refusal. Two of its steps are the model's
choice: a command is taken whatever waits on the response channel (log entry 4; under R237 a block whose
responses are never taken may stop taking commands), and with no act left the state is held (log entry
9). This is not the progress of R241, which holds for a host that takes responses. -/
def Obligations.LegalStatesRunForever : Prop :=
  ∀ (k : Nat) (s : State), Inv alphabet s →
    ∃ t, Host.Core.run core k s = .next t ∧ Inv alphabet t

/-- R26: no response and no later step depends on what `DIG` holds between commands. -/
def Obligations.ScratchBufferIsNotObservable : Prop :=
  ∀ (A : Alphabet) (ws : List Word16) (s : State) (dig : Vector Digit 11),
    trace (execWith A) ws { s with dig := dig } = trace (execWith A) ws s ∧
    (∀ t, runWords (execWith A) ws s = .next t →
      ∃ dig', runWords (execWith A) ws { s with dig := dig } = .next { t with dig := dig' })

/-- R20, R132 (d), R143 (b): what the commands of one side answer depends on the commands of that side
alone, however the others are interleaved with them (`CLR` belongs to both sides). -/
def Obligations.TheTwoSidesDoNotInterfere : Prop :=
  ∀ (A : Alphabet) (ws : List Word16) (s : State), Inv A s →
    responsesOf writesEncodeSide (trace (execWith A) ws s) =
      responsesOf writesEncodeSide (trace (execWith A) (ws.filter writesEncodeSide) s) ∧
    responsesOf writesDecodeSide (trace (execWith A) ws s) =
      responsesOf writesDecodeSide (trace (execWith A) (ws.filter writesDecodeSide) s)

/-! ## The stream transform -/

/-- R21, R22, R132 (b): after the `ENCB`s of `B`, `NB` is `L mod 8`, `EACC` is the block value of the
bytes since the last block boundary, and the responses are the symbols of the full blocks, 11 each. -/
def Obligations.EncodeSideHoldsTheBlockValue : Prop :=
  ∀ (A : Alphabet) (B : List Byte) (s : State), Inv A s → EncodeIdle s →
    ∃ t, runWords (execWith A) (words (B.map .encb)) s = .next t ∧
      t.nb.toNat = B.length % 8 ∧ t.eacc.toNat = blockValue (B.drop (8 * (B.length / 8))) ∧
      (newResponses s t).length = 11 * (B.length / 8) ∧
      newResponses s t = ((encodeBuffer A B).take (11 * (B.length / 8))).map
        fun c => responseWord (.sym c)

/-- R23, R24, R202: after the `DECS`s of symbols `S`, `NS` is `L mod 11`; the decode side is in drain
exactly if some full group had a value of 2^64 or more, and else `DACC` is the group value of the
symbols since the last group boundary. -/
def Obligations.DecodeSideHoldsTheGroupValue : Prop :=
  ∀ (A : Alphabet) (S : List Byte) (s : State), Inv A s → DecodeIdle s →
    (∀ c ∈ S, (inv A c).valid = true) →
    ∃ t, runWords (execWith A) (words (S.map .decs)) s = .next t ∧ t.ns.toNat = S.length % 11 ∧
      (t.err = 0#3 ∨ t.err = 3#3) ∧
      (t.err = 3#3 ↔ ∃ g ∈ fullGroups S, 2 ^ 64 ≤ charsValue A g) ∧
      (t.err = 0#3 → t.dacc.toNat = charsValue A (S.drop (11 * (S.length / 11))))

/-- R27, R201: once a stream has held a character outside `ALPHABET`, `ERR` is 1 and `ECHR` is the first
such character, whatever characters follow. -/
def Obligations.FirstInvalidCharacterIsRecorded : Prop :=
  ∀ (A : Alphabet) (pre post : List Byte) (c : Byte) (s : State), Inv A s → DecodeIdle s →
    (∀ x ∈ pre, (inv A x).valid = true) → (inv A c).valid = false →
    ∃ t, runWords (execWith A) (words ((pre ++ c :: post).map .decs)) s = .next t ∧
      t.err = 1#3 ∧ t.echr = c ∧ t.ns.toNat = pre.length % 11

/-- R172: an encode stream, with any commands that do not write the encode side interleaved, answers
`SYM(s_0), ..., SYM(s_(M-1)), FIN(0, 0)` with `s_0 .. s_(M-1)` = `Encode(B)`, and leaves `NB` = 0 and
`EACC` = 0. -/
def Obligations.EncodeStreamComputesEncode : Prop :=
  ∀ (A : Alphabet) (B : List Byte) (ws : List Word16) (s : State), Inv A s → EncodeIdle s →
    ws.filter writesEncodeSide = words (encodeStream B) →
    ∃ t, runWords (execWith A) ws s = .next t ∧ t.nb = 0#4 ∧ t.eacc = 0#64 ∧
      responsesOf writesEncodeSide (trace (execWith A) ws s) =
        (encodeBuffer A B).map (fun c => responseWord (.sym c)) ++ [0x3000#16]

/-- R173: a decode stream, with any commands that do not write the decode side interleaved, answers
`BYTE(y_0), ..., BYTE(y_(P-1)), FIN(v, d)` as `Decode(S)` says in the cases (a) to (e), and leaves the
decode side clear. -/
def Obligations.DecodeStreamComputesDecode : Prop :=
  ∀ (A : Alphabet) (S : List Byte) (ws : List Word16) (s : State), Inv A s → DecodeIdle s →
    ws.filter writesDecodeSide = words (decodeStream S) →
    ∃ t, runWords (execWith A) ws s = .next t ∧
      t.dacc = 0#65 ∧ t.ns = 0#4 ∧ t.err = 0#3 ∧ t.echr = 0#8 ∧
      responsesOf writesDecodeSide (trace (execWith A) ws s) =
        (emittedBytes A S).map (fun b => responseWord (.byte b)) ++
          [responseWord (.fin (verdictOf (decodeBuffer A S)).1 (verdictOf (decodeBuffer A S)).2)]

/-- R174: "For every byte sequence `B`, `Decode(Encode(B)) = Ok(B)`". -/
def Obligations.DecodeInvertsEncode : Prop :=
  ∀ (A : Alphabet) (B : List Byte), decodeBuffer A (encodeBuffer A B) = .ok B

/-- R175: no two distinct byte sequences have the same encoding. -/
def Obligations.EncodeIsInjective : Prop :=
  ∀ (A : Alphabet) (B1 B2 : List Byte), B1 ≠ B2 → encodeBuffer A B1 ≠ encodeBuffer A B2

/-- R176: the length of `Encode(B)`, the length of a successful `Decode(S)`, the lengths that occur, and
that a byte length is determined by its symbol length. -/
def Obligations.LengthLaw : Prop :=
  (∀ (A : Alphabet) (B : List Byte), (encodeBuffer A B).length = encodedLength B.length) ∧
  (∀ (A : Alphabet) (S B : List Byte), decodeBuffer A S = .ok B →
    ∃ n : BitVec 4, kinv (S.length % 11) = some ⟨true, n⟩ ∧
      B.length = 8 * (S.length / 11) + n.toNat) ∧
  (∀ L : Nat, (∃ n, encodedLength n = L) ↔ L % 11 ∈ [0, 2, 3, 5, 6, 7, 9, 10]) ∧
  (∀ m n : Nat, encodedLength m = encodedLength n → m = n)

/-- R177: every element of `Encode(B)` is an entry of `ALPHABET`. -/
def Obligations.EncodeStaysInTheAlphabet : Prop :=
  ∀ (A : Alphabet) (B : List Byte), ∀ c ∈ encodeBuffer A B, c ∈ A.codes

/-- R178, R207: which error a character sequence has: its leftmost character outside `ALPHABET`; else
InvalidLength for a remainder 1, 4 or 8; else ValueOutOfRange where some group's value is at least
2^(8n); else none. -/
def Obligations.DecodeRejectsByRank : Prop :=
  ∀ (A : Alphabet),
    (∀ (pre post : List Byte) (c : Byte), (∀ x ∈ pre, (inv A x).valid = true) →
      (inv A c).valid = false →
      decodeBuffer A (pre ++ c :: post) = .error (.invalidCharacter c)) ∧
    (∀ S : List Byte, (∀ x ∈ S, (inv A x).valid = true) → S.length % 11 ∈ [1, 4, 8] →
      decodeBuffer A S = .error .invalidLength) ∧
    (∀ (S : List Byte) (n : BitVec 4), (∀ x ∈ S, (inv A x).valid = true) →
      kinv (S.length % 11) = some ⟨true, n⟩ →
      (((∃ g ∈ fullGroups S, 2 ^ 64 ≤ charsValue A g) ∨
        2 ^ (8 * n.toNat) ≤ charsValue A (S.drop (11 * (S.length / 11)))) →
        decodeBuffer A S = .error .valueOutOfRange) ∧
      ((∀ g ∈ fullGroups S, charsValue A g < 2 ^ 64) →
        charsValue A (S.drop (11 * (S.length / 11))) < 2 ^ (8 * n.toNat) →
        ∃ B, decodeBuffer A S = .ok B))

/-- R179: the empty input, whole-buffer and on the block. -/
def Obligations.EmptyInputGivesEmptyOutput : Prop :=
  (∀ A : Alphabet, encodeBuffer A [] = [] ∧ decodeBuffer A [] = .ok []) ∧
  exec .encf State.reset = .next { State.reset with rsp := [0x3000#16] } ∧
  exec .decf State.reset = .next { State.reset with rsp := [0x3000#16] }

/-- R180: `Decode(S) = Ok(B)` if and only if `S = Encode(B)`. -/
def Obligations.DecodeAcceptsOnlyEncodings : Prop :=
  ∀ (A : Alphabet) (S B : List Byte), decodeBuffer A S = .ok B ↔ S = encodeBuffer A B

/-! ## The host procedures on the machine -/

/-- R182, R183, R174: on one instance, the host procedure to encode `B` and then the host procedure to
decode what it collected give `B` back. Other commands may be interleaved in either: they only have to
leave the stream's own side alone, and the decode side idle where the second procedure begins. -/
def Obligations.HostRoundTripOnTheMachine : Prop :=
  ∀ (A : Alphabet) (B : List Byte) (ws : List Word16) (s : State), Inv A s → EncodeIdle s →
    ws.filter writesEncodeSide = words (encodeStream B) →
    ∃ (t : State) (S : List Byte),
      runWords (execWith A) ws s = .next t ∧
      collectSymbols (finishOrder ws) (newResponses s t) = some S ∧
      S.length = encodedLength B.length ∧
      (DecodeIdle s → ws.filter writesDecodeSide = [] → DecodeIdle t) ∧
      (DecodeIdle t → ∀ ws' : List Word16, ws'.filter writesDecodeSide = words (decodeStream S) →
        ∃ u, runWords (execWith A) ws' t = .next u ∧
          (collectBytes (finishOrder ws') (newResponses t u)).map acceptReport = some (.ok B))

/-- R183 (2) to (5), R234, R236: the host procedure to decode, with any commands that do not write the
decode side interleaved, gives the complete bytes of `Decode(S)` or, with none of the provisional ones,
its error; the verdict is that of the stream's own `FIN`; the provisional output fits
`8*(L div 11) + 7` bytes. -/
def Obligations.HostDecodeIsAllOrNothing : Prop :=
  ∀ (A : Alphabet) (S : List Byte) (ws : List Word16) (s : State), Inv A s → DecodeIdle s →
    ws.filter writesDecodeSide = words (decodeStream S) →
    ∃ (t : State) (r : DecodeReport), runWords (execWith A) ws s = .next t ∧
      collectBytes (finishOrder ws) (newResponses s t) = some r ∧
      r.bytes = emittedBytes A S ∧ r.bytes.length ≤ decodedBound S.length ∧
      acceptReport r =
        match decodeBuffer A S with
        | .ok B => .ok B
        | .error e => .error ((errorCode e).setWidth 4, errorInfo e)

/-- R182 (2) to (4), R236: the host procedure to encode, with any commands that do not write the encode
side interleaved, a `DECF` and its `FIN` among them, collects all of `Encode(B)`, in the room it
reserved. -/
def Obligations.HostEncodeIsComplete : Prop :=
  ∀ (A : Alphabet) (B : List Byte) (ws : List Word16) (s : State), Inv A s → EncodeIdle s →
    ws.filter writesEncodeSide = words (encodeStream B) →
    ∃ t : State, runWords (execWith A) ws s = .next t ∧
      collectSymbols (finishOrder ws) (newResponses s t) = some (encodeBuffer A B) ∧
      (encodeBuffer A B).length = encodedLength B.length

/-- R182 (4), R183 (4), R236: "The host may read responses while it is still issuing commands": whatever
the host takes and whenever, short of a reset, it collects the same output. That each command is taken
whatever waits on the response channel is the model's (log entry 4, R237). -/
def Obligations.HostMayReadWhileIssuing : Prop :=
  ∀ (es : List HostEvent) (s : State), Inv alphabet s → s.host = es → HostEvent.reset ∉ es →
    ∃ t, Host.Core.run core es.length s = .next t ∧
      (∀ B : List Byte, EncodeIdle s →
        (issuedWords es).filter writesEncodeSide = words (encodeStream B) →
        collectSymbols (finishOrder (issuedWords es)) (answersSince s t) =
          some (encodeBuffer alphabet B)) ∧
      (∀ S : List Byte, DecodeIdle s →
        (issuedWords es).filter writesDecodeSide = words (decodeStream S) →
        (collectBytes (finishOrder (issuedWords es)) (answersSince s t)).map acceptReport =
          some (match decodeBuffer alphabet S with
            | .ok B => .ok B
            | .error e => .error ((errorCode e).setWidth 4, errorInfo e)))
end

