-- ==== Sys2Proof/Laws/State.lean ====
section
/-! SUPPORT. What each named update of the state does to each field: one lemma per field per update,
true by `rfl`, so that no later proof unfolds a record update. -/

namespace Sys2Proof.Machine

section
variable (rs : List Response) (s : State)

@[simp] theorem emit_eacc : (emit rs s).eacc = s.eacc := rfl
@[simp] theorem emit_nb : (emit rs s).nb = s.nb := rfl
@[simp] theorem emit_dacc : (emit rs s).dacc = s.dacc := rfl
@[simp] theorem emit_ns : (emit rs s).ns = s.ns := rfl
@[simp] theorem emit_err : (emit rs s).err = s.err := rfl
@[simp] theorem emit_echr : (emit rs s).echr = s.echr := rfl
@[simp] theorem emit_ill : (emit rs s).ill = s.ill := rfl
@[simp] theorem emit_dig : (emit rs s).dig = s.dig := rfl
@[simp] theorem emit_rsp : (emit rs s).rsp = s.rsp ++ rs.map responseWord := rfl
@[simp] theorem emit_delivered : (emit rs s).delivered = s.delivered := rfl
@[simp] theorem emit_host : (emit rs s).host = s.host := rfl

end

section
variable (e : DecodeError) (s : State)

@[simp] theorem raise_eacc : (raise e s).eacc = s.eacc := rfl
@[simp] theorem raise_nb : (raise e s).nb = s.nb := rfl
@[simp] theorem raise_dacc : (raise e s).dacc = s.dacc := rfl
@[simp] theorem raise_ns : (raise e s).ns = s.ns := rfl
@[simp] theorem raise_err : (raise e s).err = merge s.err (errorCode e) := rfl
@[simp] theorem raise_echr : (raise e s).echr = mergeChar s.err s.echr e := rfl
@[simp] theorem raise_ill : (raise e s).ill = s.ill := rfl
@[simp] theorem raise_dig : (raise e s).dig = s.dig := rfl
@[simp] theorem raise_rsp : (raise e s).rsp = s.rsp := rfl
@[simp] theorem raise_delivered : (raise e s).delivered = s.delivered := rfl
@[simp] theorem raise_host : (raise e s).host = s.host := rfl

end

section
variable (s : State)

@[simp] theorem clearDecodeSide_eacc : (clearDecodeSide s).eacc = s.eacc := rfl
@[simp] theorem clearDecodeSide_nb : (clearDecodeSide s).nb = s.nb := rfl
@[simp] theorem clearDecodeSide_dacc : (clearDecodeSide s).dacc = 0#65 := rfl
@[simp] theorem clearDecodeSide_ns : (clearDecodeSide s).ns = 0#4 := rfl
@[simp] theorem clearDecodeSide_err : (clearDecodeSide s).err = 0#3 := rfl
@[simp] theorem clearDecodeSide_echr : (clearDecodeSide s).echr = 0#8 := rfl
@[simp] theorem clearDecodeSide_ill : (clearDecodeSide s).ill = s.ill := rfl
@[simp] theorem clearDecodeSide_dig : (clearDecodeSide s).dig = s.dig := rfl
@[simp] theorem clearDecodeSide_rsp : (clearDecodeSide s).rsp = s.rsp := rfl
@[simp] theorem clearDecodeSide_delivered : (clearDecodeSide s).delivered = s.delivered := rfl
@[simp] theorem clearDecodeSide_host : (clearDecodeSide s).host = s.host := rfl

end

section
variable (s : State)

@[simp] theorem clearEncodeSide_eacc : (clearEncodeSide s).eacc = 0#64 := rfl
@[simp] theorem clearEncodeSide_nb : (clearEncodeSide s).nb = 0#4 := rfl
@[simp] theorem clearEncodeSide_dacc : (clearEncodeSide s).dacc = s.dacc := rfl
@[simp] theorem clearEncodeSide_ns : (clearEncodeSide s).ns = s.ns := rfl
@[simp] theorem clearEncodeSide_err : (clearEncodeSide s).err = s.err := rfl
@[simp] theorem clearEncodeSide_echr : (clearEncodeSide s).echr = s.echr := rfl
@[simp] theorem clearEncodeSide_ill : (clearEncodeSide s).ill = s.ill := rfl
@[simp] theorem clearEncodeSide_dig : (clearEncodeSide s).dig = s.dig := rfl
@[simp] theorem clearEncodeSide_rsp : (clearEncodeSide s).rsp = s.rsp := rfl
@[simp] theorem clearEncodeSide_delivered : (clearEncodeSide s).delivered = s.delivered := rfl
@[simp] theorem clearEncodeSide_host : (clearEncodeSide s).host = s.host := rfl

end

section
variable (s : State)

@[simp] theorem illegalCommand_eacc : (illegalCommand s).eacc = s.eacc := rfl
@[simp] theorem illegalCommand_nb : (illegalCommand s).nb = s.nb := rfl
@[simp] theorem illegalCommand_dacc : (illegalCommand s).dacc = s.dacc := rfl
@[simp] theorem illegalCommand_ns : (illegalCommand s).ns = s.ns := rfl
@[simp] theorem illegalCommand_err : (illegalCommand s).err = s.err := rfl
@[simp] theorem illegalCommand_echr : (illegalCommand s).echr = s.echr := rfl
@[simp] theorem illegalCommand_ill : (illegalCommand s).ill = 1#1 := rfl
@[simp] theorem illegalCommand_dig : (illegalCommand s).dig = s.dig := rfl
@[simp] theorem illegalCommand_rsp : (illegalCommand s).rsp = s.rsp ++ [0xF000#16] := rfl
@[simp] theorem illegalCommand_delivered : (illegalCommand s).delivered = s.delivered := rfl
@[simp] theorem illegalCommand_host : (illegalCommand s).host = s.host := rfl

end

section
variable (s : State)

@[simp] theorem hardReset_eacc : (hardReset s).eacc = 0#64 := rfl
@[simp] theorem hardReset_nb : (hardReset s).nb = 0#4 := rfl
@[simp] theorem hardReset_dacc : (hardReset s).dacc = 0#65 := rfl
@[simp] theorem hardReset_ns : (hardReset s).ns = 0#4 := rfl
@[simp] theorem hardReset_err : (hardReset s).err = 0#3 := rfl
@[simp] theorem hardReset_echr : (hardReset s).echr = 0#8 := rfl
@[simp] theorem hardReset_ill : (hardReset s).ill = 0#1 := rfl
@[simp] theorem hardReset_dig : (hardReset s).dig = State.reset.dig := rfl
@[simp] theorem hardReset_rsp : (hardReset s).rsp = [] := rfl
@[simp] theorem hardReset_delivered : (hardReset s).delivered = s.delivered := rfl
@[simp] theorem hardReset_host : (hardReset s).host = s.host := rfl

end

section
variable (s : State)

@[simp] theorem takeResponse_eacc : (takeResponse s).eacc = s.eacc := rfl
@[simp] theorem takeResponse_nb : (takeResponse s).nb = s.nb := rfl
@[simp] theorem takeResponse_dacc : (takeResponse s).dacc = s.dacc := rfl
@[simp] theorem takeResponse_ns : (takeResponse s).ns = s.ns := rfl
@[simp] theorem takeResponse_err : (takeResponse s).err = s.err := rfl
@[simp] theorem takeResponse_echr : (takeResponse s).echr = s.echr := rfl
@[simp] theorem takeResponse_ill : (takeResponse s).ill = s.ill := rfl
@[simp] theorem takeResponse_dig : (takeResponse s).dig = s.dig := rfl
@[simp] theorem takeResponse_rsp : (takeResponse s).rsp = s.rsp.tail := rfl
@[simp] theorem takeResponse_delivered :
    (takeResponse s).delivered =
      s.delivered ++ s.rsp.take 1 := rfl
@[simp] theorem takeResponse_host : (takeResponse s).host = s.host := rfl

end

section
variable (A : Alphabet) (K : Nat) (s : State)

@[simp] theorem emitGroup_eacc :
    (emitGroup A K s).eacc =
      BitVec.ofNat 64 (toDigits K s.eacc.toNat s.dig).1 := rfl
@[simp] theorem emitGroup_nb : (emitGroup A K s).nb = s.nb := rfl
@[simp] theorem emitGroup_dacc : (emitGroup A K s).dacc = s.dacc := rfl
@[simp] theorem emitGroup_ns : (emitGroup A K s).ns = s.ns := rfl
@[simp] theorem emitGroup_err : (emitGroup A K s).err = s.err := rfl
@[simp] theorem emitGroup_echr : (emitGroup A K s).echr = s.echr := rfl
@[simp] theorem emitGroup_ill : (emitGroup A K s).ill = s.ill := rfl
@[simp] theorem emitGroup_dig : (emitGroup A K s).dig = (toDigits K s.eacc.toNat s.dig).2 := rfl
@[simp] theorem emitGroup_rsp :
    (emitGroup A K s).rsp =
      s.rsp ++ ((readDigits K (toDigits K s.eacc.toNat s.dig).2).map fun d => .sym (alpha A d)).map responseWord := rfl
@[simp] theorem emitGroup_delivered : (emitGroup A K s).delivered = s.delivered := rfl
@[simp] theorem emitGroup_host : (emitGroup A K s).host = s.host := rfl

end

section
variable (v : BitVec 4) (d : Byte) (s : State)

@[simp] theorem closeDecode_eacc : (closeDecode v d s).eacc = s.eacc := rfl
@[simp] theorem closeDecode_nb : (closeDecode v d s).nb = s.nb := rfl
@[simp] theorem closeDecode_dacc : (closeDecode v d s).dacc = 0#65 := rfl
@[simp] theorem closeDecode_ns : (closeDecode v d s).ns = 0#4 := rfl
@[simp] theorem closeDecode_err : (closeDecode v d s).err = 0#3 := rfl
@[simp] theorem closeDecode_echr : (closeDecode v d s).echr = 0#8 := rfl
@[simp] theorem closeDecode_ill : (closeDecode v d s).ill = s.ill := rfl
@[simp] theorem closeDecode_dig : (closeDecode v d s).dig = s.dig := rfl
@[simp] theorem closeDecode_rsp :
    (closeDecode v d s).rsp =
      s.rsp ++ [responseWord (.fin v d)] := rfl
@[simp] theorem closeDecode_delivered : (closeDecode v d s).delivered = s.delivered := rfl
@[simp] theorem closeDecode_host : (closeDecode v d s).host = s.host := rfl

end

section
variable (s : State)

@[simp] theorem drainDigit_eacc : (drainDigit s).eacc = s.eacc := rfl
@[simp] theorem drainDigit_nb : (drainDigit s).nb = s.nb := rfl
@[simp] theorem drainDigit_dacc : (drainDigit s).dacc = s.dacc := rfl
@[simp] theorem drainDigit_ns : (drainDigit s).ns = BitVec.ofNat 4 ((s.ns.toNat + 1) % 11) := rfl
@[simp] theorem drainDigit_err : (drainDigit s).err = s.err := rfl
@[simp] theorem drainDigit_echr : (drainDigit s).echr = s.echr := rfl
@[simp] theorem drainDigit_ill : (drainDigit s).ill = s.ill := rfl
@[simp] theorem drainDigit_dig : (drainDigit s).dig = s.dig := rfl
@[simp] theorem drainDigit_rsp : (drainDigit s).rsp = s.rsp := rfl
@[simp] theorem drainDigit_delivered : (drainDigit s).delivered = s.delivered := rfl
@[simp] theorem drainDigit_host : (drainDigit s).host = s.host := rfl

end

section
variable (w : Word16) (s : State)

@[simp] theorem offer_eacc : (offer w s).eacc = s.eacc := rfl
@[simp] theorem offer_nb : (offer w s).nb = s.nb := rfl
@[simp] theorem offer_dacc : (offer w s).dacc = s.dacc := rfl
@[simp] theorem offer_ns : (offer w s).ns = s.ns := rfl
@[simp] theorem offer_err : (offer w s).err = s.err := rfl
@[simp] theorem offer_echr : (offer w s).echr = s.echr := rfl
@[simp] theorem offer_ill : (offer w s).ill = s.ill := rfl
@[simp] theorem offer_dig : (offer w s).dig = s.dig := rfl
@[simp] theorem offer_rsp : (offer w s).rsp = s.rsp := rfl
@[simp] theorem offer_delivered : (offer w s).delivered = s.delivered := rfl
@[simp] theorem offer_host : (offer w s).host = .command w :: s.host := rfl

end

section
variable (d : Digit) (s : State)

@[simp] theorem acceptDigit_eacc : (acceptDigit d s).eacc = s.eacc := by
  unfold acceptDigit; dsimp only; split <;> [skip; rfl]; split <;> rfl
@[simp] theorem acceptDigit_nb : (acceptDigit d s).nb = s.nb := by
  unfold acceptDigit; dsimp only; split <;> [skip; rfl]; split <;> rfl
@[simp] theorem acceptDigit_echr : (acceptDigit d s).echr = s.echr := by
  unfold acceptDigit; dsimp only; split <;> [skip; rfl]; split <;> rfl
@[simp] theorem acceptDigit_ill : (acceptDigit d s).ill = s.ill := by
  unfold acceptDigit; dsimp only; split <;> [skip; rfl]; split <;> rfl
@[simp] theorem acceptDigit_dig : (acceptDigit d s).dig = s.dig := by
  unfold acceptDigit; dsimp only; split <;> [skip; rfl]; split <;> rfl
@[simp] theorem acceptDigit_delivered : (acceptDigit d s).delivered = s.delivered := by
  unfold acceptDigit; dsimp only; split <;> [skip; rfl]; split <;> rfl
@[simp] theorem acceptDigit_host : (acceptDigit d s).host = s.host := by
  unfold acceptDigit; dsimp only; split <;> [skip; rfl]; split <;> rfl

end

section

@[simp] theorem reset_eacc : State.reset.eacc = 0#64 := rfl
@[simp] theorem reset_nb : State.reset.nb = 0#4 := rfl
@[simp] theorem reset_dacc : State.reset.dacc = 0#65 := rfl
@[simp] theorem reset_ns : State.reset.ns = 0#4 := rfl
@[simp] theorem reset_err : State.reset.err = 0#3 := rfl
@[simp] theorem reset_echr : State.reset.echr = 0#8 := rfl
@[simp] theorem reset_ill : State.reset.ill = 0#1 := rfl
@[simp] theorem reset_dig : State.reset.dig = Vector.replicate 11 0 := rfl
@[simp] theorem reset_rsp : State.reset.rsp = [] := rfl
@[simp] theorem reset_delivered : State.reset.delivered = [] := rfl
@[simp] theorem reset_host : State.reset.host = [] := rfl

end

end Sys2Proof.Machine
end

