-- ==== Sys2Proof/Laws/Commands.lean ====
section
/-! SUPPORT. What each command can do, once per command: the cases in which it answers, with the next
state of each, and the two in which it stops. Proofs cite these and do not unfold the commands. -/

namespace Sys2Proof.Machine

/-- An index of `KTAB` has an entry exactly when it is 0..8 (R51, R59). -/
theorem ktab_eq_none_iff (n : Nat) : ktab n = none ↔ 9 ≤ n := by
  simp [ktab]

/-- An index of `KINV` has an entry exactly when it is 0..10 (R54, R59). -/
theorem kinv_eq_none_iff (r : Nat) : kinv r = none ↔ 11 ≤ r := by
  simp [kinv]

/-- A full block has 11 symbols (R51). -/
@[simp] theorem groupLen_eight : groupLen 8 = some 11 := rfl

/-- `ENCB` in the middle of a block takes the byte (R130). -/
theorem encodeByte_open (A : Alphabet) (b : Byte) (s : State) (h : s.nb + 1#4 ≠ 8#4) :
    encodeByte A b s = .next { s with eacc := shiftIn s.eacc b, nb := s.nb + 1#4 } := by
  simp [encodeByte, dataByte, h]

/-- `ENCB` on the 8th byte closes the block (R130). -/
theorem encodeByte_close (A : Alphabet) (b : Byte) (s : State) (h : s.nb + 1#4 = 8#4) :
    encodeByte A b s = .next (clearEncodeSide
      (emitGroup A 11 { s with eacc := shiftIn s.eacc b, nb := s.nb + 1#4 })) := by
  simp [encodeByte, dataByte, h]

/-- `ENCF` at a block boundary gives `FIN(0, 0)` alone (R131). -/
theorem encodeFinish_empty (A : Alphabet) (s : State) (h : s.nb = 0#4) :
    encodeFinish A s = .next (emit [.fin 0#4 0#8] s) := by
  simp [encodeFinish, h]

/-- `ENCF` with a partial block emits its group, then `FIN(0, 0)` (R131). -/
theorem encodeFinish_partial (A : Alphabet) (s : State) (K : BitVec 4) (h : s.nb ≠ 0#4)
    (hK : ktab s.nb.toNat = some K) :
    encodeFinish A s =
      .next (emit [.fin 0#4 0#8] (clearEncodeSide (emitGroup A K.toNat s))) := by
  simp [encodeFinish, groupLen, h, hK]

/-- `ENCF` stops only where `NB` is outside `KTAB` (R59, log entry 7). -/
theorem encodeFinish_stop (A : Alphabet) (s : State) (h : 9 ≤ s.nb.toNat) :
    encodeFinish A s = .fault (.noSuchEntry .ktab s.nb.toNat) := by
  have h0 : s.nb ≠ 0#4 := by rintro h0; simp [h0] at h
  simp [encodeFinish, groupLen, h0, (ktab_eq_none_iff _).2 h]

/-- `DECS` always answers, in one of the four conditions of R141. -/
theorem decodeChar_eq (A : Alphabet) (c : Byte) (s : State) :
    decodeChar A c s = .next
      (if s.err = 1#3 then s
       else if (inv A c).valid = false then raise (.invalidCharacter c) s
       else if s.err = 3#3 then drainDigit s
       else acceptDigit (inv A c).value s) := by
  unfold decodeChar charDigit
  split_ifs <;> rfl

/-- `DECS` in the middle of a group accumulates the digit (R141). -/
theorem acceptDigit_open (d : Digit) (s : State) (h : s.ns + 1#4 ≠ 11#4) :
    acceptDigit d s = { s with dacc := horner s.dacc d, ns := s.ns + 1#4 } := by
  simp [acceptDigit, h]

/-- `DECS` on the 11th symbol of a group in range emits its 8 bytes (R141). -/
theorem acceptDigit_inRange (d : Digit) (s : State) (h : s.ns + 1#4 = 11#4)
    (hv : inRange (horner s.dacc d) 8 = true) :
    acceptDigit d s =
      { emit ((toBytes (horner s.dacc d) 8).map .byte) s with dacc := 0#65, ns := 0#4 } := by
  simp [acceptDigit, h, hv, emit]

/-- `DECS` on the 11th symbol of a group out of range raises ValueOutOfRange (R141, R203). -/
theorem acceptDigit_outOfRange (d : Digit) (s : State) (h : s.ns + 1#4 = 11#4)
    (hv : inRange (horner s.dacc d) 8 = false) :
    acceptDigit d s = { raise .valueOutOfRange s with dacc := 0#65, ns := 0#4 } := by
  simp [acceptDigit, h, hv, raise]

/-- `DECF` in the dead condition reports the character (R142). -/
theorem decodeFinish_dead (s : State) (h : s.err = 1#3) :
    decodeFinish s = .next (closeDecode 1#4 s.echr s) := by
  simp [decodeFinish, h]

/-- The errors that `DECF` raises are cleared in the same step and leave no trace (R142). -/
theorem closeDecode_raise (v : BitVec 4) (d : Byte) (e : DecodeError) (s : State) :
    closeDecode v d (raise e s) = closeDecode v d s := rfl

/-- `DECF` outside the dead condition: the verdict from `NS`, `ERR` and `DACC` (R142). -/
theorem decodeFinish_live (s : State) (e : KinvEntry) (h : s.err ≠ 1#3)
    (he : kinv s.ns.toNat = some e) :
    decodeFinish s = .next
      (if e.valid = false then closeDecode 2#4 0#8 s
       else if s.err = 3#3 then closeDecode 3#4 0#8 s
       else if e.n = 0#4 then closeDecode 0#4 0#8 s
       else if inRange s.dacc e.n.toNat then
         closeDecode 0#4 0#8 (emit ((toBytes s.dacc e.n.toNat).map .byte) s)
       else closeDecode 3#4 0#8 s) := by
  simp only [decodeFinish, h, he, if_false, closeDecode_raise]
  split_ifs <;> rfl

/-- `DECF` stops only where `NS` is outside `KINV` (R59, log entry 7). -/
theorem decodeFinish_stop (s : State) (h : s.err ≠ 1#3) (hn : 11 ≤ s.ns.toNat) :
    decodeFinish s = .fault (.noSuchEntry .kinv s.ns.toNat) := by
  simp [decodeFinish, h, (kinv_eq_none_iff _).2 hn]

end Sys2Proof.Machine
end

