-- ==== Sys2Proof/Laws/Datapath.lean ====
section
/-! SUPPORT. The small lemmas of the tables, the datapath functions and the reference functions, so that
later proofs do not unfold them. -/

namespace Sys2Proof.Machine

@[simp] theorem remainder60_val (x : Nat) : (remainder60 x).val = x % 60 := rfl

/-- A digit is its own remainder. -/
theorem remainder60_of_digit (d : Digit) : remainder60 d.val = d :=
  Fin.ext (Nat.mod_eq_of_lt d.isLt)

@[simp] theorem toDigits_zero (t : Nat) (dig : Vector Digit 11) : toDigits 0 t dig = (t, dig) := rfl

theorem toDigits_succ (k t : Nat) (dig : Vector Digit 11) :
    toDigits (k + 1) t dig = toDigits k (t / 60) (dig.setIfInBounds k (remainder60 t)) := rfl

@[simp] theorem toBytes_length (v : BitVec 65) (n : Nat) : (toBytes v n).length = n := by
  simp [toBytes]

@[simp] theorem bytesOf_length (v n : Nat) : (bytesOf v n).length = n := by
  simp [bytesOf]

@[simp] theorem digitsOf_length (v K : Nat) : (digitsOf v K).length = K := by
  simp [digitsOf]

/-- The machine's bytes are the reference's: a shift by `8i` is a division by `256^i`. -/
theorem toBytes_eq_bytesOf (v : BitVec 65) (n : Nat) : toBytes v n = bytesOf v.toNat n := by
  simp [toBytes, bytesOf, pow_mul]

@[simp] theorem blockValue_nil : blockValue [] = 0 := rfl

theorem blockValue_cons (b : Byte) (bs : List Byte) :
    blockValue (b :: bs) = b.toNat * 256 ^ bs.length + blockValue bs := rfl

@[simp] theorem groupValue_nil : groupValue [] = 0 := rfl

theorem groupValue_cons (d : Digit) (ds : List Digit) :
    groupValue (d :: ds) = d.val * 60 ^ ds.length + groupValue ds := rfl

/-- The group value, digit by digit from the left: one step of Horner's method. -/
theorem groupValue_append_singleton (ds : List Digit) (d : Digit) :
    groupValue (ds ++ [d]) = groupValue ds * 60 + d.val := by
  induction ds with
  | nil => simp [groupValue]
  | cons a as ih => simp only [List.cons_append, groupValue_cons, ih, List.length_append,
      List.length_singleton, pow_succ]; ring

/-- The block value, byte by byte from the left: one step of `ShiftIn`. -/
theorem blockValue_append_singleton (bs : List Byte) (b : Byte) :
    blockValue (bs ++ [b]) = blockValue bs * 256 + b.toNat := by
  induction bs with
  | nil => simp [blockValue]
  | cons a as ih => simp only [List.cons_append, blockValue_cons, ih, List.length_append,
      List.length_singleton, pow_succ]; ring

/-- `Horner` before its reduction to the width of `DACC`. -/
theorem horner_toNat (acc : BitVec 65) (d : Digit) :
    (horner acc d).toNat = (acc.toNat * 60 + d.val) % 2 ^ 65 := by
  simp [horner]

/-- The codes of `ALPHABET` are what `ALPHA` reads (R52). -/
theorem alpha_mem (A : Alphabet) (d : Digit) : alpha A d ∈ A.codes := by
  simp [alpha]

@[simp] theorem inRange_iff (v : BitVec 65) (n : Nat) :
    inRange v n = true ↔ v.toNat < 2 ^ (8 * n) := by
  simp [inRange]

end Sys2Proof.Machine
end

