-- ==== Sys2Proof/Laws/Events.lean ====
section
/-! SUPPORT. What a step can do: which act of the host it performs, and how a run goes on. -/

namespace Sys2Proof.Machine

/-- An idle block keeps its state. -/
theorem stepBy_idle (ex : Meaning) (s : State) (h : s.host = []) : stepBy ex s = .next s := by
  simp [stepBy, h]

/-- The next act of the host is performed on the state without it. -/
theorem stepBy_event (ex : Meaning) (s : State) (e : HostEvent) (rest : List HostEvent)
    (h : s.host = e :: rest) : stepBy ex s = runEvent ex e { s with host := rest } := by
  simp [stepBy, h]

/-- Everything a step that answers can be: idle, a command that decodes, an illegal word, a response
taken, or a reset. -/
theorem stepBy_cases {ex : Meaning} {s t : State} (h : stepBy ex s = .next t) :
    (s.host = [] ∧ t = s) ∨
    (∃ w rest i, s.host = .command w :: rest ∧ decode w = .ok i ∧
      ex i { s with host := rest } = .next t) ∨
    (∃ w rest e, s.host = .command w :: rest ∧ decode w = .error e ∧
      t = illegalCommand { s with host := rest }) ∨
    (∃ rest, s.host = .takeResponse :: rest ∧ t = takeResponse { s with host := rest }) ∨
    (∃ rest, s.host = .reset :: rest ∧ t = hardReset { s with host := rest }) := by
  cases hh : s.host with
  | nil =>
    rw [stepBy_idle ex s hh] at h
    exact .inl ⟨rfl, (Host.Outcome.next.inj h).symm⟩
  | cons e rest =>
    rw [stepBy_event ex s e rest hh] at h
    cases e with
    | command w =>
      cases hd : decode w with
      | ok i =>
        simp only [runEvent, runWord, hd] at h
        exact .inr (.inl ⟨w, rest, i, rfl, hd, h⟩)
      | error e =>
        simp only [runEvent, runWord, hd] at h
        exact .inr (.inr (.inl ⟨w, rest, e, rfl, hd, (Host.Outcome.next.inj h).symm⟩))
    | takeResponse =>
      exact .inr (.inr (.inr (.inl ⟨rest, rfl, (Host.Outcome.next.inj h).symm⟩)))
    | reset =>
      exact .inr (.inr (.inr (.inr ⟨rest, rfl, (Host.Outcome.next.inj h).symm⟩)))

/-- The machine of the host's interface is the instance of the default `ALPHABET`, instruction by
instruction. -/
theorem exec_eq_execWith (i : Instr) (s : State) : exec i s = execWith alphabet i s := by
  cases i <;> rfl

/-- A run of one more word. -/
theorem runWords_cons_next {ex : Meaning} {w : Word16} {s t : State} (ws : List Word16)
    (h : runWord ex w s = .next t) : runWords ex (w :: ws) s = runWords ex ws t := by
  simp [runWords, h]

/-- The trace of one more word. -/
theorem trace_cons_next {ex : Meaning} {w : Word16} {s t : State} (ws : List Word16)
    (h : runWord ex w s = .next t) :
    trace ex (w :: ws) s = (w, newResponses s t) :: trace ex ws t := by
  simp [trace, h]

/-- Appended responses are the new ones. -/
@[simp] theorem newResponses_append (s t : State) (rs : List Word16) (h : t.rsp = s.rsp ++ rs) :
    newResponses s t = rs := by
  simp [newResponses, h]

end Sys2Proof.Machine
end

