-- ==== Sys2Proof/Laws/HostSide.lean ====
section
/-! SUPPORT. How the host's collecting goes over the response words, one word or one skipped run at a
time, and what of the host's acts counts as issued (R182, R183, R236). -/

namespace Sys2Proof.Machine

/-! ## The words issued and the order of the FIN words -/

@[simp] theorem issuedWords_command (w : Word16) (es : List HostEvent) :
    issuedWords (.command w :: es) = w :: issuedWords es := rfl
@[simp] theorem issuedWords_takeResponse (es : List HostEvent) :
    issuedWords (.takeResponse :: es) = issuedWords es := rfl

@[simp] theorem finishOrder_nil : finishOrder [] = [] := rfl
@[simp] theorem finishOrder_append (ws ws' : List Word16) :
    finishOrder (ws ++ ws') = finishOrder ws ++ finishOrder ws' := by
  simp [finishOrder]

/-- A word that finishes no stream adds no `FIN` to expect. -/
theorem finishOrder_cons_none {w : Word16} (ws : List Word16) (h : finishedSide w = none) :
    finishOrder (w :: ws) = finishOrder ws := by
  simp [finishOrder, h]

/-- A word that finishes a stream adds that stream's `FIN`. -/
theorem finishOrder_cons_some {w : Word16} {d : Side} (ws : List Word16)
    (h : finishedSide w = some d) : finishOrder (w :: ws) = d :: finishOrder ws := by
  simp [finishOrder, h]

/-- Exactly the words of `ENCF` and `DECF` finish a stream. -/
theorem finishedSide_eq_some_iff (w : Word16) (d : Side) :
    finishedSide w = some d ↔
      (d = .encode ∧ decode w = .ok .encf) ∨ (d = .decode ∧ decode w = .ok .decf) := by
  unfold finishedSide
  split <;> cases d <;> simp_all

/-! ## Collecting the symbols -/

/-- A `SYM` word is appended. -/
theorem collectSymbols_sym {w : Word16} {c : Byte} (order : List Side) (ws : List Word16)
    (h : readResponse w = some (.sym c)) :
    collectSymbols order (w :: ws) = (collectSymbols order ws).map (c :: ·) := by
  simp [collectSymbols, h]

/-- The `FIN` of the encode stream completes the output. -/
theorem collectSymbols_ownFin {w : Word16} {v : BitVec 4} {d : Byte} (later : List Side)
    (ws : List Word16) (h : readResponse w = some (.fin v d)) :
    collectSymbols (.encode :: later) (w :: ws) = some [] := by
  simp [collectSymbols, h]

/-- The `FIN` of a decode stream is passed over. -/
theorem collectSymbols_otherFin {w : Word16} {v : BitVec 4} {d : Byte} (later : List Side)
    (ws : List Word16) (h : readResponse w = some (.fin v d)) :
    collectSymbols (.decode :: later) (w :: ws) = collectSymbols later ws := by
  simp [collectSymbols, h]

/-- Words that are neither `SYM` nor `FIN` are passed over. -/
theorem collectSymbols_skip (order : List Side) (skipped ws : List Word16)
    (h : ∀ w ∈ skipped, (∀ c, readResponse w ≠ some (.sym c)) ∧
      ∀ v d, readResponse w ≠ some (.fin v d)) :
    collectSymbols order (skipped ++ ws) = collectSymbols order ws := by
  induction skipped with
  | nil => rfl
  | cons w rest ih =>
    obtain ⟨hs, hf⟩ := h w (by simp)
    have hr := ih fun x hx => h x (by simp [hx])
    cases hw : readResponse w with
    | none => simpa [collectSymbols, hw] using hr
    | some r => cases r <;> simp_all [collectSymbols]

/-! ## Collecting the bytes -/

/-- A `BYTE` word is appended to the provisional output. -/
theorem collectBytes_byte {w : Word16} {b : Byte} (order : List Side) (ws : List Word16)
    (h : readResponse w = some (.byte b)) :
    collectBytes order (w :: ws) =
      (collectBytes order ws).map fun r => { r with bytes := b :: r.bytes } := by
  simp [collectBytes, h]

/-- The `FIN` of the decode stream is its verdict. -/
theorem collectBytes_ownFin {w : Word16} {v : BitVec 4} {d : Byte} (later : List Side)
    (ws : List Word16) (h : readResponse w = some (.fin v d)) :
    collectBytes (.decode :: later) (w :: ws) = some ⟨[], v, d⟩ := by
  simp [collectBytes, h]

/-- The `FIN` of an encode stream is passed over. -/
theorem collectBytes_otherFin {w : Word16} {v : BitVec 4} {d : Byte} (later : List Side)
    (ws : List Word16) (h : readResponse w = some (.fin v d)) :
    collectBytes (.encode :: later) (w :: ws) = collectBytes later ws := by
  simp [collectBytes, h]

/-- Words that are neither `BYTE` nor `FIN` are passed over. -/
theorem collectBytes_skip (order : List Side) (skipped ws : List Word16)
    (h : ∀ w ∈ skipped, (∀ b, readResponse w ≠ some (.byte b)) ∧
      ∀ v d, readResponse w ≠ some (.fin v d)) :
    collectBytes order (skipped ++ ws) = collectBytes order ws := by
  induction skipped with
  | nil => rfl
  | cons w rest ih =>
    obtain ⟨hb, hf⟩ := h w (by simp)
    have hr := ih fun x hx => h x (by simp [hx])
    cases hw : readResponse w with
    | none => simpa [collectBytes, hw] using hr
    | some r => cases r <;> simp_all [collectBytes]

/-! ## What the block has answered -/

/-- Appended responses are the answers. -/
theorem answersSince_append (s t : State) (rs : List Word16) (hd : t.delivered = s.delivered)
    (hr : t.rsp = s.rsp ++ rs) : answersSince s t = rs := by
  simp [answersSince, hd, hr]

/-- Taking a response answers nothing and loses nothing. -/
theorem takeResponse_channel (s : State) :
    (takeResponse s).delivered ++ (takeResponse s).rsp = s.delivered ++ s.rsp := by
  cases h : s.rsp <;> simp [takeResponse, h]

end Sys2Proof.Machine
end

