-- ==== Sys2Proof/Laws/PerInstr.lean ====
section
/-! SUPPORT. The per-instruction family TableRow: the word of an instruction is a word of its own row of
the opcode table, and the row is in the table (spec/30_encoding.md R84). -/

namespace Sys2Proof.Laws

/-- The encoded word matches the instruction's row, which is a row of R84. -/
def TableRow.Statement (i : Instr) : Prop :=
  rowOf i ∈ opcodeTable ∧ matchesRow (rowOf i) (encode i) = true

theorem TableRow.nop : TableRow.Statement .nop := ⟨by decide, by decide⟩

theorem TableRow.clr : TableRow.Statement .clr := ⟨by decide, by decide⟩

theorem TableRow.encb (b : Byte) : TableRow.Statement (.encb b) := by
  refine ⟨by simp [rowOf, opcodeTable], ?_⟩
  revert b
  decide

theorem TableRow.encf : TableRow.Statement .encf := ⟨by decide, by decide⟩

theorem TableRow.decs (c : Byte) : TableRow.Statement (.decs c) := by
  refine ⟨by simp [rowOf, opcodeTable], ?_⟩
  revert c
  decide

theorem TableRow.decf : TableRow.Statement .decf := ⟨by decide, by decide⟩

theorem TableRow.rdst : TableRow.Statement .rdst := ⟨by decide, by decide⟩

end Sys2Proof.Laws
end

