-- ==== Sys2Proof/Tests/Slice0.lean ====
section
/-! SUPPORT. The model's own tests. Expected values are copied from spec/95_test_vectors.md and from the
worked examples of the rules, never from the model. After them, the witnesses: for every statement
with hypotheses, a concrete state and operands that meet them, at a boundary of each clause. -/

namespace Sys2Proof.Machine.Tests

/-- The next state of an outcome, where there is one. -/
def nextOf (o : Host.Outcome State Fault Refusal) : Option State :=
  match o with
  | .next t => some t
  | .fault _ => none
  | .refused _ => none

/-- The fault of an outcome, where there is one. -/
def faultOf (o : Host.Outcome State Fault Refusal) : Option Fault :=
  match o with
  | .next _ => none
  | .fault r => some r
  | .refused _ => none

/-- A state with an encode stream in progress. -/
def encoding (eacc : BitVec 64) (nb : BitVec 4) : State := { State.reset with eacc := eacc, nb := nb }

/-- A state with a decode stream in progress. -/
def decoding (dacc : BitVec 65) (ns : BitVec 4) (err : BitVec 3) (echr : Byte) : State :=
  { State.reset with dacc := dacc, ns := ns, err := err, echr := echr }

/-- A state whose host goes on with `es`. -/
def hosted (es : List HostEvent) : State := { State.reset with host := es }

/-! ## Well-formed words (R85) and ALPHABET (R52) -/

theorem test_wf_op_reserved : opDefined 0x7000 = false ∧ wordWellFormed 0x7000 = false := by decide
theorem test_wf_zero_set : zeroClear 0x2148 = false ∧ wordWellFormed 0x2148 = false := by decide
theorem test_wf_arg_set : argClear 0x3001 = false ∧ wordWellFormed 0x3001 = false := by decide
theorem test_wf_legal : [0x0000, 0x1000, 0x20FF, 0x3000, 0x40FF, 0x5000, 0x6000].all
    (fun w => wordWellFormed w) = true := by decide
/-- 59 entries, a repeated entry, and a space are each refused by a field of `Alphabet`. -/
theorem test_alphabet_short : ¬ defaultCodes.tail.length = 60 := by decide
theorem test_alphabet_repeat : ¬ (defaultCodes.tail ++ [0x31]).Nodup := by decide
theorem test_alphabet_space : ¬ ∀ c ∈ (0x20 : Byte) :: defaultCodes.tail, 0x21 ≤ c.toNat ∧ c.toNat ≤ 0x7E := by
  decide

/-! ## Decoding, words written out from R84 -/

theorem test_decode_nop : decode 0b0000000000000000#16 = .ok .nop := by decide
theorem test_decode_clr : decode 0b0001000000000000#16 = .ok .clr := by decide
theorem test_decode_encb : decode 0b0010000010000001#16 = .ok (.encb 0x81) := by decide
theorem test_decode_encf : decode 0b0011000000000000#16 = .ok .encf := by decide
theorem test_decode_decs : decode 0b0100000001111010#16 = .ok (.decs 0x7A) := by decide
theorem test_decode_decf : decode 0b0101000000000000#16 = .ok .decf := by decide
theorem test_decode_rdst : decode 0b0110000000000000#16 = .ok .rdst := by decide
theorem test_encode_words : words [.nop, .clr, .encb 0x48, .encf, .decs 0x47, .decf, .rdst] =
    [0x0000, 0x1000, 0x2048, 0x3000, 0x4047, 0x5000, 0x6000] := by decide
/-- The illegal words of section 2.7. -/
theorem test_decode_illegal :
    [0x7000, 0x2148, 0x3001, 0x0001, 0x1001, 0x5100, 0x60FF, 0xFFFF].all
      (fun w => decide (∀ row ∈ opcodeTable, matchesRow row w = false) && (decode w).toOption.isNone)
      = true := by decide
theorem test_decodeTableWord : decodeTableWord 16 0x2048 = some (.encb 0x48) ∧
    decodeTableWord 16 0x7000 = none := by decide

/-! ## Tables and datapath (sections 2.1 and 2.8, R110 to R117) -/

theorem test_inv_spots : [0x30, 0x39, 0x41, 0x48, 0x4A, 0x4E, 0x50, 0x5A, 0x61, 0x7A].map
      (fun c => inv alphabet c) =
    [⟨true, 0⟩, ⟨true, 9⟩, ⟨true, 10⟩, ⟨true, 17⟩, ⟨true, 18⟩, ⟨true, 22⟩, ⟨true, 23⟩, ⟨true, 33⟩,
     ⟨true, 34⟩, ⟨true, 59⟩] := by decide
theorem test_inv_invalid : [0x00, 0x20, 0x2F, 0x3A, 0x40, 0x49, 0x4F, 0x5B, 0x60, 0x7B, 0x7F, 0x80, 0xFF].all
      (fun c => decide (inv alphabet c = ⟨false, 0⟩)) = true := by decide
/-- `valid` is bit 6 over the value 18 of `J` (R50); `valid` is bit 4 over n = 5 (R50). -/
theorem test_entry_bits : invBits (inv alphabet 0x4A) = 0b1010010 ∧
    (kinv 7).map kinvBits = some 0b10101 := by decide
theorem test_shiftIn : shiftIn 0x00FFFFFFFFFFFFFF 0xFF = 0xFFFFFFFFFFFFFFFF ∧ shiftIn 1 2 = 258 := by
  decide
theorem test_toDigits_258 : readDigits 3 (toDigits 3 258 State.reset.dig).2 = [0, 4, 18] := by decide
theorem test_toDigits_max : readDigits 11 (toDigits 11 18446744073709551615 State.reset.dig).2 =
    [30, 30, 27, 9, 5, 3, 50, 40, 31, 0, 15] := by decide
theorem test_horner_max : (horner 604661759999999999 59).toNat = 36279705599999999999 := by decide
theorem test_inRange : inRange 18446744073709551615 8 = true ∧ inRange 18446744073709551616 8 = false ∧
    inRange 255 1 = true ∧ inRange 256 1 = false := by decide
theorem test_toBytes : toBytes 478661076001 5 = [0x6F, 0x72, 0x6C, 0x64, 0x21] ∧
    toBytes 258 3 = [0x00, 0x01, 0x02] := by decide

/-! ## Instructions -/

/-- Section 2.7: `NOP` from reset. -/
theorem test_nop : nextOf (exec .nop State.reset) = some State.reset := by decide
/-- Section 2.7: `CLR` from `NB` = 3, `EACC` = 0x010203, `ERR` = 3, `NS` = 4, `ILL` = 1. -/
theorem test_clr : nextOf (exec .clr
      { State.reset with nb := 3, eacc := 0x010203, err := 3, ns := 4, ill := 1 }) =
    some State.reset := by decide
/-- P1, command 7. -/
theorem test_encb_open : (nextOf (exec (.encb 0x20) (encoding 0x48656C6C6F2C 6))).map
      (fun t => (t.eacc, t.nb, t.rsp)) = some (0x48656C6C6F2C20, 7, []) := by decide
/-- P1, command 8. -/
theorem test_encb_close : (nextOf (exec (.encb 0x77) (encoding 0x48656C6C6F2C20 7))).map
      (fun t => (t.eacc, t.nb, t.rsp)) =
    some (0, 0, [0x1038, 0x1064, 0x1065, 0x1072, 0x1048, 0x1056, 0x1065, 0x1035, 0x1047, 0x1042, 0x1062])
    := by decide
/-- P1, command 14. -/
theorem test_encf_partial : (nextOf (exec .encf (encoding 0x6F726C6421 5))).map
      (fun t => (t.eacc, t.nb, t.rsp)) =
    some (0, 0, [0x1041, 0x1046, 0x105A, 0x106A, 0x1057, 0x1030, 0x1031, 0x3000]) := by decide
/-- P8, command 2: a pending zero byte is not nothing. -/
theorem test_encf_zero_byte : (nextOf (exec .encf (encoding 0 1))).map (fun t => (t.nb, t.rsp)) =
    some (0, [0x1030, 0x1030, 0x3000]) := by decide
/-- P2, command 11. -/
theorem test_decs_group : (nextOf (exec (.decs 0x62) (decoding 86944915939266971 10 0 0))).map
      (fun t => (t.dacc, t.ns, t.err, t.rsp)) =
    some (0, 0, 0, [0x2048, 0x2065, 0x206C, 0x206C, 0x206F, 0x202C, 0x2020, 0x2077]) := by decide
/-- P4, commands 12 and 16: clean to drain, drain to dead. -/
theorem test_decs_errors :
    nextOf (exec (.decs 0x7A) (decoding 604661759999999999 10 0 0)) = some (decoding 0 0 3 0) ∧
    nextOf (exec (.decs 0x49) (decoding 0 1 3 0)) = some (decoding 0 1 1 0x49) := by decide
/-- P2, command 19. -/
theorem test_decf_bytes : (nextOf (exec .decf (decoding 478661076001 7 0 0))).map
      (fun t => (t.dacc, t.ns, t.rsp)) =
    some (0, 0, [0x206F, 0x2072, 0x206C, 0x2064, 0x2021, 0x3000]) := by decide
/-- P3 command 13, P4 command 20, P6 command 19, and the drain row `zzzzzzzzzzz00` of section 2.5. -/
theorem test_decf_verdicts :
    [decoding 0 1 0 0, decoding 0 1 1 0x49, decoding 1212838326066 7 0 0, decoding 0 2 3 0].map
      (fun s => (nextOf (exec .decf s)).map State.rsp) =
    [some [0x3200], some [0x3149], some [0x3300], some [0x3300]] := by decide
/-- P5, command 6. -/
theorem test_rdst : (nextOf (exec .rdst
      { State.reset with eacc := 0x4865, nb := 2, dacc := 255, ns := 2, ill := 1 })).map State.rsp =
    some [0x4822] := by decide

/-! ## Steps, the host's acts, ports, assembler -/

/-- P5, command 4: an illegal word, through the channel. -/
theorem test_step_illegal : nextOf (step (hosted [.command 0x7000])) =
    some { State.reset with ill := 1, rsp := [0xF000] } := by decide
theorem test_step_fetched : nextOf (step (State.reset.withFetchWord 16 0x5000)) =
    some { State.reset with rsp := [0x3000] } := by decide
/-- R230: reset loses the words not yet taken and keeps the host's. -/
theorem test_step_reset : nextOf (step { State.reset with
      ill := 1, nb := 3, rsp := [0xF000], delivered := [0x3000], host := [.reset] }) =
    some { State.reset with delivered := [0x3000] } := by decide
/-- R233: with `rst` 1 nothing moves; else each channel moves where both its signals are 1. -/
theorem test_edges :
    edgeEvents ⟨true, true, true, 0x5000, true, true⟩ = [.reset] ∧
    edgeEvents ⟨false, true, true, 0x5000, true, true⟩ = [.takeResponse, .command 0x5000] ∧
    edgeEvents ⟨false, true, false, 0x5000, true, false⟩ = [] := by decide
/-- The examples of R91: hexadecimal, decimal, a quoted character, a comment, a raw word. -/
theorem test_assemble_lines :
    [" ENCB 0x48 ; a byte", "ENCB 72", "DECS 'G'", "; only a comment", ".word 0x7000"].map
      (fun l => assembleLine l.toList) =
    [some [0x2048], some [0x2048], some [0x4047], some [], some [0x7000]] := by decide
theorem test_assemble_streams : assembleLine "ENCODE 0x01, 2".toList = some [0x2001, 0x2002, 0x3000] ∧
    assembleLine "DECODE \"4F\"".toList = some [0x4034, 0x4046, 0x5000] ∧
    assembleLine "ENCB 256".toList = none := by decide
/-- What R91 leaves open, as log entry 14 settles it. -/
theorem test_assemble_choices : ["", " \t", "DECS'G'", "DECS0x47"].map
      (fun l => assembleLine l.toList) = [some [], some [], some [0x4047], none] := by decide
/-- P5, commands 1 to 10: each direction's own `FIN`, the other's passed over. -/
theorem test_collect_interleaved :
    finishOrder [0x2048, 0x4034, 0x2065, 0x7000, 0x4046, 0x6000, 0x5000, 0x0000, 0x206C, 0x3000] =
      [.decode, .encode] ∧
    collectSymbols [.decode, .encode] [0xF000, 0x4822, 0x20FF, 0x3000, 0x1030, 0x104D, 0x1078, 0x1076,
      0x1077, 0x3000] = some [0x30, 0x4D, 0x78, 0x76, 0x77] ∧
    collectBytes [.decode, .encode] [0xF000, 0x4822, 0x20FF, 0x3000, 0x1030, 0x104D, 0x1078, 0x1076,
      0x1077, 0x3000] = some ⟨[0xFF], 0, 0⟩ := by decide
/-- R183 (5): `ENCF` before the `DECF` of a stream with `I` in it; the verdict is the `DECF`'s. -/
theorem test_verdict_interleaved : finishOrder [0x4049, 0x3000, 0x5000] = [.encode, .decode] ∧
    (collectBytes [.encode, .decode] [0x3000, 0x3149]).map acceptReport = some (.error (1, 0x49)) := by
  decide
/-- Section 2.2, `01 02` and `FF ×9`; section 2.5, `zzzzzzzzzzz0!`. -/
theorem test_reference :
    encodeBuffer alphabet [0x01, 0x02] = [0x30, 0x34, 0x4A] ∧
    encodeBuffer alphabet (List.replicate 9 0xFF) =
      [0x57, 0x57, 0x54, 0x39, 0x35, 0x33, 0x71, 0x67, 0x58, 0x30, 0x46, 0x34, 0x46] ∧
    decodeBuffer alphabet (List.replicate 11 0x7A ++ [0x30, 0x21]) = .error (.invalidCharacter 0x21) := by
  decide

/-! ## Witnesses: concrete data that meet the hypotheses of the statements -/

theorem witness_ResetEventClearsTheBlock : (hosted [.reset]).host = .reset :: [] := rfl
theorem witness_StepRunsTheDecodedInstruction :
    (hosted [.command 0x20FF]).host = .command 0x20FF :: [] ∧ decode 0x20FF = .ok (.encb 0xFF) := by
  decide
theorem witness_IllegalWordSetsTheFlag : (hosted [.command 0x6001]).host = .command 0x6001 :: [] ∧
    (∀ row ∈ opcodeTable, (0x6001 : Word16) &&& row.mask ≠ row.matchWord) ∧
    (∀ row ∈ opcodeTable, (0x7000 : Word16) &&& row.mask ≠ row.matchWord) := by decide
theorem witness_HostTakesTheOldestResponse :
    (∃ s : State, s.host = [.takeResponse] ∧ s.rsp = [0xF000, 0x3000]) ∧
    (∃ s : State, s.host = [.takeResponse] ∧ s.rsp = []) ∧ (∃ s : State, s.host = []) :=
  ⟨⟨{ hosted [.takeResponse] with rsp := [0xF000, 0x3000] }, rfl, rfl⟩,
   ⟨hosted [.takeResponse], rfl, rfl⟩, ⟨State.reset, rfl⟩⟩
theorem witness_ResponsesAreNeverDroppedOrReordered :
    (∃ s t : State, stepWith alphabet s = .next t ∧ s.host.head? = some .takeResponse ∧ s.rsp ≠ []) ∧
    (∃ s t : State, stepWith alphabet s = .next t ∧ s.host.head? = some (.command 0x6000)) :=
  ⟨⟨{ hosted [.takeResponse] with rsp := [0xF000] }, _, rfl, rfl, by decide⟩,
   ⟨hosted [.command 0x6000], _, rfl, rfl⟩⟩
theorem witness_HostQueueRunsAsTheCommandSequence :
    (hosted [.command 0x2000, .command 0x3000, .reset]).host =
      commandsOf [0x2000, 0x3000] ++ [.reset] := rfl
theorem witness_DecodeAndEncodeAgree : decode 0x40FF = .ok (.decs 0xFF) := by decide
theorem witness_DecodeSelectsTheTableRow :
    (⟨"DECS", 0x4000#16, 0xFF00#16⟩ : OpcodeRow) ∈ opcodeTable ∧
    (0x40FF : Word16) &&& 0xFF00 = 0x4000 ∧ decode 0x40FF = .ok (.decs (argField 0x40FF)) := by decide
theorem witness_PartialLengthsAreMinimal : ktab 1 = some 2 ∧ ktab 8 = some 11 := by decide
theorem witness_TrailingCountsInvertTheTable :
    kinv 0 = some ⟨true, 0⟩ ∧ kinv 10 = some ⟨true, 7⟩ ∧ kinv 8 = some ⟨false, 0⟩ := by decide
theorem witness_SymbolTableIsInverted : ∀ d : Digit, alpha alphabet d ≠ 0x49 := by decide
theorem witness_ShiftInIsExact : (0x00FFFFFFFFFFFFFF : BitVec 64).toNat < 2 ^ 56 ∧
    (List.replicate 8 (0xFF : Byte)).length ≤ 8 := by decide
theorem witness_ToDigitsClosedForm : 11 ≤ 11 ∧ 36279705599999999999 < 60 ^ 11 := by decide
theorem witness_HornerIsExact : (604661759999999999 : BitVec 65).toNat < 60 ^ 10 ∧
    (List.replicate 11 (59 : Digit)).length ≤ 11 := by decide
theorem witness_HornerAndToDigitsAreInverse : 36279705599999999999 < 60 ^ 11 ∧
    ktab 1 = some 2 ∧ ([4, 15] : List Digit).length = (2 : BitVec 4).toNat ∧
    (([4, 15] : List Digit).foldl horner 0#65).toNat < 2 ^ (8 * 1) := by decide
theorem witness_RangeCheckIsStrict : 1 ≤ 1 ∧ 1 ≤ 8 ∧ 8 ≤ 8 := by decide
theorem witness_ToBytesIsBigEndian : (18446744073709551615 : BitVec 65).toNat < 2 ^ (8 * 8) ∧
    (255 : BitVec 65).toNat < 2 ^ (8 * 1) := by decide
theorem witness_ClrGivesTheResetState : ∃ s t : State, exec .clr s = .next t ∧ s.ill = 1#1 ∧ t.ill = 0#1 :=
  ⟨{ State.reset with ill := 1 }, _, rfl, rfl, rfl⟩
theorem witness_EncbTakesAByte :
    (∃ s : State, s.nb.toNat ≤ 7 ∧ s.eacc.toNat < 2 ^ 56 ∧ s.nb.toNat < 7) ∧
    (∃ s : State, s.nb.toNat ≤ 7 ∧ s.eacc.toNat < 2 ^ 56 ∧ s.nb.toNat = 7) :=
  ⟨⟨encoding 0xFFFFFFFFFFFF 6, by decide⟩, ⟨encoding 0xFFFFFFFFFFFFFF 7, by decide⟩⟩
theorem witness_EncfFinishesTheStream :
    (encoding 0 0).nb = 0#4 ∧
    (1 ≤ (encoding 0xFF 1).nb.toNat ∧ ktab (encoding 0xFF 1).nb.toNat = some 2) ∧
    ((encoding 0xFF 7).nb.toNat ≤ 7 ∧ ktab (encoding 0xFF 7).nb.toNat = some 10) := by decide
theorem witness_DecsByCondition :
    ((decoding 0 1 1 0x49).err = 1#3) ∧
    ((decoding 0 0 0 0).err = 0#3 ∧ (decoding 0 0 3 0).err = 3#3 ∧ (inv alphabet 0x49).valid = false) ∧
    ((inv alphabet 0x7A).valid = true) ∧
    ((decoding 10077695999999999 9 0 0).dacc.toNat < 60 ^ 10 ∧
      (decoding 10077695999999999 9 0 0).ns.toNat < 10) ∧
    ((decoding 604661759999999999 10 0 0).dacc.toNat < 60 ^ 10 ∧
      (decoding 604661759999999999 10 0 0).ns.toNat = 10) := by decide
theorem witness_DecfReportsTheVerdict :
    ((decoding 0 10 1 0x49).err = 1#3 ∧ (decoding 0 10 1 0x49).ns.toNat ≤ 10) ∧
    ((decoding 0 8 3 0).err ≠ 1#3 ∧ (decoding 0 8 3 0).ns.toNat = 8) ∧
    ((decoding 0 10 3 0).err = 3#3 ∧ (decoding 0 10 3 0).ns.toNat ≠ 8) ∧
    ((decoding 0 0 0 0).err = 0#3 ∧ (decoding 0 0 0 0).ns.toNat = 0) ∧
    (kinv (decoding 255 2 0 0).ns.toNat = some ⟨true, 1⟩ ∧ (decoding 255 2 0 0).dacc.toNat < 2 ^ 8) ∧
    (kinv (decoding 256 2 0 0).ns.toNat = some ⟨true, 1⟩ ∧ ¬ (decoding 256 2 0 0).dacc.toNat < 2 ^ 8) := by
  decide
/-- The two stops happen, and only there: `NB` = 9 stops `ENCF`, `NB` = 8 does not. -/
theorem witness_StopsOnlyOutsideTheTables :
    9 ≤ (encoding 0 9).nb.toNat ∧ faultOf (exec .encf (encoding 0 9)) = some (.noSuchEntry .ktab 9) ∧
    (nextOf (exec .encf (encoding 0 8))).isSome = true ∧
    11 ≤ (decoding 0 11 0 0).ns.toNat ∧
    faultOf (exec .decf (decoding 0 11 0 0)) = some (.noSuchEntry .kinv 11) := by decide
theorem witness_EncodeCommandsFrame :
    (∃ t, exec (.encb 0xFF) (encoding 0 7) = .next t) ∧ (∃ t, exec .encf (encoding 0 7) = .next t) :=
  ⟨⟨_, rfl⟩, ⟨_, rfl⟩⟩
theorem witness_DecodeCommandsFrame :
    (∃ t, exec (.decs 0x7A) (decoding 0 10 0 0) = .next t) ∧
    (∃ t, exec .decf (decoding 0 10 0 0) = .next t) :=
  ⟨⟨_, rfl⟩, ⟨_, rfl⟩⟩
theorem witness_ResponsesPerCommand : Inv alphabet (encoding 0xFFFFFFFFFFFFFF 7) ∧
    ∃ t, execWith alphabet (.encb 0xFF) (encoding 0xFFFFFFFFFFFFFF 7) = .next t :=
  ⟨by decide, ⟨_, rfl⟩⟩
theorem witness_ErrorConditionTransitions :
    (∃ s t : State, Inv alphabet s ∧ stepWith alphabet s = .next t ∧ t.err ≠ s.err ∧ t.err = 1#3) ∧
    (∃ s t : State, Inv alphabet s ∧ stepWith alphabet s = .next t ∧ t.err ≠ s.err ∧ t.err = 0#3) :=
  ⟨⟨{ decoding 0 1 3 0 with host := [.command 0x4049] }, decoding 0 1 1 0x49, by decide, rfl, by decide,
     rfl⟩,
   ⟨{ decoding 0 1 1 0x49 with host := [.command 0x5000] },
     { State.reset with rsp := [0x3149] }, by decide, rfl, by decide, rfl⟩⟩
theorem witness_NoBytesAfterAnError : ∃ s t : State,
    Inv alphabet s ∧ stepWith alphabet s = .next t ∧ s.err ≠ 0#3 ∧ newResponses s t = [0x3149#16] :=
  ⟨{ decoding 0 1 1 0x49 with host := [.command 0x5000] }, { State.reset with rsp := [0x3149] },
   by decide, rfl, by decide, rfl⟩
theorem witness_IllegalFlagIsSticky :
    (∃ s t : State, stepWith alphabet s = .next t ∧ t.ill ≠ s.ill ∧ t.ill = 1#1) ∧
    (∃ s t : State, stepWith alphabet s = .next t ∧ t.ill ≠ s.ill ∧ t.ill = 0#1) :=
  ⟨⟨hosted [.command 0x7000], { State.reset with ill := 1, rsp := [0xF000] }, rfl, by decide, rfl⟩,
   ⟨{ hosted [.command 0x1000] with ill := 1 }, State.reset, rfl, by decide, rfl⟩⟩
theorem witness_OnlyLegalResponseWords : ∃ s t : State,
    Inv alphabet s ∧ stepWith alphabet s = .next t ∧ (0x4000#16 : Word16) ∈ newResponses s t :=
  ⟨hosted [.command 0x6000], { State.reset with rsp := [0x4000] }, by decide, rfl, by decide⟩
theorem witness_EveryStepKeepsTheInvariant : ∃ s t : State,
    Inv alphabet s ∧ step s = .next t ∧ stepWith alphabet s = .next t ∧ t.err = 3#3 :=
  ⟨{ decoding 604661759999999999 10 0 0 with host := [.command 0x407A] }, decoding 0 0 3 0,
   by decide, rfl, rfl, rfl⟩
theorem witness_LegalStatesRunForever : Inv alphabet (encoding 0xFFFFFFFFFFFFFF 7) ∧
    Inv alphabet (decoding 604661759999999999 10 0 0) := by decide
theorem witness_ScratchBufferIsNotObservable :
    ∃ t, runWords (execWith alphabet) [0x2000, 0x3000] State.reset = .next t := ⟨_, rfl⟩
theorem witness_TheTwoSidesDoNotInterfere : Inv alphabet State.reset ∧
    [0x2048, 0x4034, 0x7000, 0x3000].filter writesEncodeSide = [0x2048, 0x3000] := by decide
theorem witness_EncodeStreamComputesEncode : Inv alphabet State.reset ∧ EncodeIdle State.reset ∧
    [0x2048, 0x4034, 0x7000, 0x3000].filter writesEncodeSide = words (encodeStream [0x48]) := by decide
theorem witness_DecodeStreamComputesDecode : Inv alphabet State.reset ∧ DecodeIdle State.reset ∧
    [0x4034, 0x2048, 0x4046, 0x6000, 0x5000].filter writesDecodeSide =
      words (decodeStream [0x34, 0x46]) := by decide
theorem witness_EncodeSideHoldsTheBlockValue :
    Inv alphabet State.reset ∧ EncodeIdle State.reset := by decide
theorem witness_DecodeSideHoldsTheGroupValue : Inv alphabet State.reset ∧ DecodeIdle State.reset ∧
    (∀ c ∈ ([0x34, 0x46] : List Byte), (inv alphabet c).valid = true) := by decide
theorem witness_FirstInvalidCharacterIsRecorded : Inv alphabet State.reset ∧ DecodeIdle State.reset ∧
    (∀ x ∈ ([0x7A] : List Byte), (inv alphabet x).valid = true) ∧
    (inv alphabet 0x21).valid = false := by decide
theorem witness_EncodeIsInjective : ([0x00, 0x01] : List Byte) ≠ [0x01] := by decide
theorem witness_LengthLaw : decodeBuffer alphabet [0x34, 0x46] = .ok [0xFF] ∧
    encodedLength 8 = encodedLength 8 := by decide
theorem witness_EncodeStaysInTheAlphabet : (0x46 : Byte) ∈ encodeBuffer alphabet [0xFF] := by decide
theorem witness_DecodeRejectsByRank :
    ((∀ x ∈ ([0x30] : List Byte), (inv alphabet x).valid = true) ∧ (inv alphabet 0x49).valid = false) ∧
    ((List.replicate 12 (0x30 : Byte)).length % 11 ∈ [1, 4, 8]) ∧
    (kinv (List.replicate 11 (0x7A : Byte)).length = none ∧
      kinv ((List.replicate 11 (0x7A : Byte)).length % 11) = some ⟨true, 0⟩ ∧
      ∃ g ∈ fullGroups (List.replicate 11 0x7A), 2 ^ 64 ≤ charsValue alphabet g) ∧
    (kinv (([0x34, 0x47] : List Byte).length % 11) = some ⟨true, 1⟩ ∧
      2 ^ (8 * 1) ≤ charsValue alphabet ([0x34, 0x47] : List Byte)) ∧
    charsValue alphabet ([0x34, 0x46] : List Byte) < 2 ^ (8 * 1) := by decide
theorem witness_HostRoundTripOnTheMachine : Inv alphabet State.reset ∧ EncodeIdle State.reset ∧
    DecodeIdle State.reset ∧
    [0x2048, 0x7000, 0x3000].filter writesEncodeSide = words (encodeStream [0x48]) ∧
    [0x2048, 0x7000, 0x3000].filter writesDecodeSide = [] ∧
    [0x4031, 0x3000, 0x4043, 0x5000].filter writesDecodeSide =
      words (decodeStream (encodeBuffer alphabet [0x48])) := by decide
theorem witness_HostDecodeIsAllOrNothing : Inv alphabet State.reset ∧ DecodeIdle State.reset ∧
    [0x4049, 0x3000, 0x5000].filter writesDecodeSide = words (decodeStream [0x49]) := by decide
theorem witness_HostEncodeIsComplete : Inv alphabet State.reset ∧ EncodeIdle State.reset ∧
    [0x2048, 0x4034, 0x5000, 0x3000].filter writesEncodeSide = words (encodeStream [0x48]) := by decide
/-- Both directions at once, with responses taken between their commands. -/
theorem witness_HostMayReadWhileIssuing :
    ∃ es : List HostEvent, Inv alphabet (hosted es) ∧ (hosted es).host = es ∧ HostEvent.reset ∉ es ∧
      EncodeIdle (hosted es) ∧ DecodeIdle (hosted es) ∧
      (issuedWords es).filter writesEncodeSide = words (encodeStream [0x48]) ∧
      (issuedWords es).filter writesDecodeSide = words (decodeStream [0x34, 0x46]) :=
  ⟨[.command 0x4034, .command 0x2048, .command 0x4046, .command 0x5000, .takeResponse, .takeResponse,
    .command 0x3000], by decide⟩

end Sys2Proof.Machine.Tests
end

/-! ## The machine of the interface and the default `ALPHABET` -/

section
namespace Sys2Proof.Machine

/-- The two meanings of the instructions are one and the same function. -/
theorem exec_eq_execWith_alphabet : exec = execWith alphabet :=
  funext fun i => funext (exec_eq_execWith i)

/-- A step of the interface's machine runs its command by the default instance (R7, R33). -/
theorem step_eq_stepWith (s : State) : step s = stepWith alphabet s := by
  rw [step, stepWith, exec_eq_execWith_alphabet]

/-- Settles O8: the instructions agree one by one, and a step depends on them only. -/
theorem execIsTheDefaultInstance : Obligations.ExecIsTheDefaultInstance :=
  ⟨exec_eq_execWith, step_eq_stepWith⟩

end Sys2Proof.Machine
end

section
/-! ## Command words -/

namespace Sys2Proof

/-- A command word is its three fields one after the other (R80). -/
theorem fields_append (w : Word16) : opField w ++ (zeroField w ++ argField w) = w := by
  unfold opField zeroField argField
  rw [BitVec.extractLsb'_append_extractLsb'_eq_extractLsb' (by rfl),
    BitVec.extractLsb'_append_extractLsb'_eq_extractLsb' (by rfl)]
  exact BitVec.extractLsb'_eq_self

/-- Decoding the word of an instruction gives the instruction back (R94, R84). -/
@[simp] theorem decode_encode (i : Instr) : decode (encode i) = .ok i := by
  cases i with
  | encb b => revert b; decide
  | decs c => revert c; decide
  | nop => rfl
  | clr => rfl
  | encf => rfl
  | decf => rfl
  | rdst => rfl

theorem encode_encb (b : Byte) : encode (.encb b) = 0x2#4 ++ (0#4 ++ b) := by revert b; decide
theorem encode_decs (c : Byte) : encode (.decs c) = 0x4#4 ++ (0#4 ++ c) := by revert c; decide

/-- Only an instruction's own word decodes to it: no bit of a command word is dropped (R85, R94). -/
theorem encode_eq_of_decode {w : Word16} {i : Instr} (h : decode w = .ok i) : encode i = w := by
  have hw := fields_append w
  unfold decode at h
  split_ifs at h with hz hencb hdecs harg hnop hclr hencf hdecf hrdst
  all_goals obtain rfl := Except.ok.inj h
  · rw [hencb, not_not.1 hz] at hw; exact (encode_encb _).trans hw
  · rw [hdecs, not_not.1 hz] at hw; exact (encode_decs _).trans hw
  · rw [hnop, not_not.1 hz, not_not.1 harg] at hw; exact hw
  · rw [hclr, not_not.1 hz, not_not.1 harg] at hw; exact hw
  · rw [hencf, not_not.1 hz, not_not.1 harg] at hw; exact hw
  · rw [hdecf, not_not.1 hz, not_not.1 harg] at hw; exact hw
  · rw [hrdst, not_not.1 hz, not_not.1 harg] at hw; exact hw

end Sys2Proof

/-! ## The datapath within its preconditions -/

namespace Sys2Proof.Machine

/-- No length in `KTAB` exceeds the size of `DIG` (R51, R26). -/
theorem ktab_le_eleven {n : Nat} {K : BitVec 4} (h : ktab n = some K) : K.toNat ≤ 11 := by
  have hn : n < 9 := by
    by_contra hn
    simp [(ktab_eq_none_iff n).2 (by omega)] at h
  have table : ∀ m < 9, ∀ k, ktab m = some k → k.toNat ≤ 11 := by decide
  exact table n hn K h

/-- The entries of `DIG` after `ToDigits` (R112): the digits of the value, the others as they were. -/
theorem toDigits_getElem (K v : Nat) (dig : Vector Digit 11) (hK : K ≤ 11) (j : Nat) (hj : j < 11) :
    (toDigits K v dig).2[j] =
      if j < K then remainder60 (v / 60 ^ (K - 1 - j)) else dig[j] := by
  induction K generalizing v dig with
  | zero => simp
  | succ k ih =>
    rw [toDigits_succ, ih _ _ (by omega)]
    rcases Nat.lt_trichotomy j k with hlt | rfl | hgt
    · have hexp : k - j = k - 1 - j + 1 := by omega
      simp [hlt, Nat.lt_succ_of_lt hlt, hexp, pow_succ', Nat.div_div_eq_div_mul]
    · simp
    · simp [Nat.not_lt.2 (Nat.le_of_lt hgt), show ¬ j < k + 1 by omega, Nat.ne_of_lt hgt]

/-- What a conversion leaves for `SYM` does not depend on what `DIG` held before (R26, R112). -/
theorem readDigits_toDigits (K v : Nat) (dig : Vector Digit 11) (hK : K ≤ 11) :
    readDigits K (toDigits K v dig).2 = digitsOf v K := by
  refine List.ext_getElem (by simp [readDigits, hK]) fun j hj _ => ?_
  have hjK : j < K := by simp [readDigits] at hj; omega
  simp [readDigits, digitsOf, toDigits_getElem K v dig hK j (by omega), hjK]

/-- `ShiftIn` is exact while its top byte is free (R110). -/
theorem shiftIn_toNat (acc : BitVec 64) (b : Byte) (h : acc.toNat < 2 ^ 56) :
    (shiftIn acc b).toNat = acc.toNat * 256 + b.toNat := by
  have hb := b.isLt
  simp only [shiftIn, BitVec.toNat_or, BitVec.toNat_shiftLeft, BitVec.toNat_setWidth]
  rw [Nat.mod_eq_of_lt (by omega : b.toNat < 2 ^ 64),
    Nat.mod_eq_of_lt (by rw [Nat.shiftLeft_eq]; omega : acc.toNat <<< 8 < 2 ^ 64),
    ← Nat.shiftLeft_add_eq_or_of_lt hb, Nat.shiftLeft_eq]

/-- `Horner` is exact while the group has room for a digit (R114). -/
theorem horner_toNat_exact (acc : BitVec 65) (d : Digit) (h : acc.toNat < 60 ^ 10) :
    (horner acc d).toNat = acc.toNat * 60 + d.val := by
  have hd := d.isLt
  rw [horner_toNat, Nat.mod_eq_of_lt (by omega)]

/-- One more digit takes a group value from below `60^m` to below `60^(m+1)` (R114). -/
theorem mul_sixty_add_digit_lt {v m : Nat} (d : Digit) (h : v < 60 ^ m) :
    v * 60 + d.val < 60 ^ (m + 1) := by
  have hd := d.isLt
  rw [pow_succ]
  omega

/-- The value of a group of `m` digits is below `60^m` (R56). -/
theorem groupValue_lt (ds : List Digit) : groupValue ds < 60 ^ ds.length := by
  induction ds using List.reverseRecOn with
  | nil => simp
  | append_singleton ds d ih =>
    rw [groupValue_append_singleton, List.length_append, List.length_singleton]
    exact mul_sixty_add_digit_lt d ih

/-- One more byte takes a block value from below `2^(8n)` to below `2^(8(n+1))` (R110). -/
theorem mul_256_add_byte_lt {v n : Nat} (b : Byte) (h : v < 2 ^ (8 * n)) :
    v * 256 + b.toNat < 2 ^ (8 * (n + 1)) := by
  have hb := b.isLt
  rw [mul_add, pow_add]
  omega

/-- The value of a block of `n` bytes is below `2^(8n)` (R55). -/
theorem blockValue_lt (bs : List Byte) : blockValue bs < 2 ^ (8 * bs.length) := by
  induction bs using List.reverseRecOn with
  | nil => simp
  | append_singleton bs b ih =>
    rw [blockValue_append_singleton, List.length_append, List.length_singleton]
    exact mul_256_add_byte_lt b ih

theorem charsValue_append_singleton (A : Alphabet) (g : List Byte) (c : Byte) :
    charsValue A (g ++ [c]) = charsValue A g * 60 + (inv A c).value.val := by
  simp [charsValue, groupValue_append_singleton]

theorem charsValue_lt (A : Alphabet) (g : List Byte) : charsValue A g < 60 ^ g.length := by
  simpa [charsValue] using groupValue_lt (g.map fun c => (inv A c).value)

/-- `ToDigits(EACC, K)` and its `SYM`s, told without the buffer: the symbols are those of the digits
of `EACC` (R112, R113). -/
theorem emitGroup_eq (A : Alphabet) {K : Nat} (hK : K ≤ 11) (s : State) :
    emitGroup A K s =
      { emit ((digitsOf s.eacc.toNat K).map fun d => .sym (alpha A d)) s with
        eacc := BitVec.ofNat 64 (toDigits K s.eacc.toNat s.dig).1
        dig := (toDigits K s.eacc.toNat s.dig).2 } := by
  simp [emitGroup, emit, readDigits_toDigits K _ _ hK]

end Sys2Proof.Machine
end

section
namespace Sys2Proof.Machine

/-! ## Each command reads and writes its own side

A command of one side does to a state what it does to that side alone (R20): it is run on the part of
the state that is its side, and the result is put back. The frames, that `DIG` is not observable, and
that the two sides do not interfere all follow. -/

/-- The next state of an outcome changed by `f`, a stop as it is. -/
def mapNext (f : State → State) :
    Host.Outcome State Fault Refusal → Host.Outcome State Fault Refusal
  | .next t => .next (f t)
  | .fault r => .fault r
  | .refused r => .refused r

@[simp] theorem mapNext_next (f : State → State) (t : State) :
    mapNext f (.next t) = .next (f t) := rfl
@[simp] theorem mapNext_fault (f : State → State) (r : Fault) :
    mapNext f (.fault r) = .fault r := rfl

theorem mapNext_eq_next_iff (f : State → State) (o : Host.Outcome State Fault Refusal) (t : State) :
    mapNext f o = .next t ↔ ∃ u, o = .next u ∧ f u = t := by
  cases o <;> simp [mapNext]

/-- The state that has the encode side of `s` and is else as after reset. -/
def encodePart (s : State) : State := { State.reset with eacc := s.eacc, nb := s.nb }

/-- The state that has the decode side of `s` and is else as after reset. -/
def decodePart (s : State) : State :=
  { State.reset with dacc := s.dacc, ns := s.ns, err := s.err, echr := s.echr }

/-- `s` with the encode side of `u`, the buffer `dig`, and the responses of `u` after its own. -/
def putEncode (s : State) (dig : Vector Digit 11) (u : State) : State :=
  { s with eacc := u.eacc, nb := u.nb, dig := dig, rsp := s.rsp ++ u.rsp }

/-- `s` with the decode side of `u`, and the responses of `u` after its own. -/
def putDecode (s u : State) : State :=
  { s with dacc := u.dacc, ns := u.ns, err := u.err, echr := u.echr, rsp := s.rsp ++ u.rsp }

@[simp] theorem encodePart_eacc (s : State) : (encodePart s).eacc = s.eacc := rfl
@[simp] theorem encodePart_nb (s : State) : (encodePart s).nb = s.nb := rfl
@[simp] theorem encodePart_rsp (s : State) : (encodePart s).rsp = [] := rfl
@[simp] theorem decodePart_dacc (s : State) : (decodePart s).dacc = s.dacc := rfl
@[simp] theorem decodePart_ns (s : State) : (decodePart s).ns = s.ns := rfl
@[simp] theorem decodePart_err (s : State) : (decodePart s).err = s.err := rfl
@[simp] theorem decodePart_echr (s : State) : (decodePart s).echr = s.echr := rfl
@[simp] theorem decodePart_rsp (s : State) : (decodePart s).rsp = [] := rfl

theorem putDecode_decodePart (s : State) : putDecode s (decodePart s) = s := by
  simp [putDecode]

/-- Emitting a group reads the encode side alone, up to what it leaves in `DIG` (R26, R112). -/
theorem emitGroup_local (A : Alphabet) {K : Nat} (hK : K ≤ 11) (s : State) :
    clearEncodeSide (emitGroup A K s) =
      putEncode s (toDigits K s.eacc.toNat s.dig).2
        (clearEncodeSide (emitGroup A K (encodePart s))) := by
  simp [emitGroup_eq A hK, putEncode, clearEncodeSide, emit]

/-- `ENCB` does to a state what it does to its encode side alone (R20, R130). -/
theorem encodeByte_local (A : Alphabet) (b : Byte) (s : State) :
    ∃ dig, encodeByte A b s = mapNext (putEncode s dig) (encodeByte A b (encodePart s)) := by
  by_cases hfull : s.nb + 1#4 = 8#4
  · rw [encodeByte_close A b s hfull, encodeByte_close A b (encodePart s) hfull,
      emitGroup_local A (le_refl 11)]
    exact ⟨_, rfl⟩
  · rw [encodeByte_open A b s hfull, encodeByte_open A b (encodePart s) hfull]
    exact ⟨s.dig, by simp [putEncode]⟩

/-- `ENCF` does to a state what it does to its encode side alone (R20, R131). -/
theorem encodeFinish_local (A : Alphabet) (s : State) :
    ∃ dig, encodeFinish A s = mapNext (putEncode s dig) (encodeFinish A (encodePart s)) := by
  by_cases h0 : s.nb = 0#4
  · rw [encodeFinish_empty A s h0, encodeFinish_empty A (encodePart s) h0]
    exact ⟨s.dig, by simp [putEncode, emit]⟩
  · cases hK : ktab s.nb.toNat with
    | none =>
      have hnb := (ktab_eq_none_iff _).1 hK
      rw [encodeFinish_stop A s hnb, encodeFinish_stop A (encodePart s) hnb]
      exact ⟨s.dig, rfl⟩
    | some K =>
      rw [encodeFinish_partial A s K h0 hK, encodeFinish_partial A (encodePart s) K h0 hK,
        emitGroup_local A (ktab_le_eleven hK)]
      exact ⟨(toDigits K.toNat s.eacc.toNat s.dig).2, by simp [putEncode, emit]⟩

/-- Taking a symbol's digit reads the decode side alone (R141). -/
theorem acceptDigit_local (d : Digit) (s : State) :
    acceptDigit d s = putDecode s (acceptDigit d (decodePart s)) := by
  by_cases hfull : s.ns + 1#4 = 11#4
  · cases hv : inRange (horner s.dacc d) 8 with
    | true =>
      simp [acceptDigit_inRange d s hfull hv,
        acceptDigit_inRange d (decodePart s) hfull hv, putDecode, emit]
    | false =>
      simp [acceptDigit_outOfRange d s hfull hv,
        acceptDigit_outOfRange d (decodePart s) hfull hv, putDecode, raise]
  · simp [acceptDigit_open d s hfull, acceptDigit_open d (decodePart s) hfull, putDecode]

/-- `DECS` in the dead condition is ignored (R141). -/
theorem decodeChar_dead (A : Alphabet) (c : Byte) (s : State) (h : s.err = 1#3) :
    decodeChar A c s = .next s := by
  simp [decodeChar_eq, h]

/-- `DECS` of a character outside `ALPHABET` raises InvalidCharacter (R141, R201). -/
theorem decodeChar_invalid (A : Alphabet) (c : Byte) (s : State) (h : s.err ≠ 1#3)
    (hc : (inv A c).valid = false) :
    decodeChar A c s = .next (raise (.invalidCharacter c) s) := by
  simp [decodeChar_eq, h, hc]

/-- `DECS` of a symbol in the drain condition counts it (R141). -/
theorem decodeChar_drain (A : Alphabet) (c : Byte) (s : State) (h : s.err = 3#3)
    (hc : (inv A c).valid = true) : decodeChar A c s = .next (drainDigit s) := by
  simp [decodeChar_eq, h, hc]

/-- `DECS` of a symbol in the clean condition takes its digit (R141). -/
theorem decodeChar_clean (A : Alphabet) (c : Byte) (s : State) (h1 : s.err ≠ 1#3)
    (h3 : s.err ≠ 3#3) (hc : (inv A c).valid = true) :
    decodeChar A c s = .next (acceptDigit (inv A c).value s) := by
  simp [decodeChar_eq, h1, h3, hc]

/-- `DECS` does to a state what it does to its decode side alone (R20, R141). -/
theorem decodeChar_local (A : Alphabet) (c : Byte) (s : State) :
    decodeChar A c s = mapNext (putDecode s) (decodeChar A c (decodePart s)) := by
  by_cases h1 : s.err = 1#3
  · rw [decodeChar_dead A c s h1, decodeChar_dead A c (decodePart s) h1, mapNext_next,
      putDecode_decodePart]
  cases hc : (inv A c).valid with
  | false =>
    rw [decodeChar_invalid A c s h1 hc, decodeChar_invalid A c (decodePart s) h1 hc]
    simp [putDecode, raise]
  | true =>
    by_cases h3 : s.err = 3#3
    · rw [decodeChar_drain A c s h3 hc, decodeChar_drain A c (decodePart s) h3 hc]
      simp [putDecode, drainDigit]
    · rw [decodeChar_clean A c s h1 h3 hc, decodeChar_clean A c (decodePart s) h1 h3 hc,
        acceptDigit_local, mapNext_next]

/-- The bytes, the `FIN` and the clearing at the end of `DECF` touch the decode side alone. -/
theorem closeDecode_emit_local (v : BitVec 4) (d : Byte) (rs : List Response) (s : State) :
    closeDecode v d (emit rs s) = putDecode s (closeDecode v d (emit rs (decodePart s))) := by
  simp [putDecode, closeDecode, clearDecodeSide, emit]

theorem closeDecode_local (v : BitVec 4) (d : Byte) (s : State) :
    closeDecode v d s = putDecode s (closeDecode v d (decodePart s)) := by
  simp [putDecode, closeDecode, clearDecodeSide, emit]

/-- `DECF` does to a state what it does to its decode side alone (R20, R142). -/
theorem decodeFinish_local (s : State) :
    decodeFinish s = mapNext (putDecode s) (decodeFinish (decodePart s)) := by
  by_cases h1 : s.err = 1#3
  · rw [decodeFinish_dead s h1, decodeFinish_dead (decodePart s) h1, closeDecode_local,
      mapNext_next, decodePart_echr]
  cases he : kinv s.ns.toNat with
  | none =>
    have hns := (kinv_eq_none_iff _).1 he
    rw [decodeFinish_stop s h1 hns, decodeFinish_stop (decodePart s) h1 hns, mapNext_fault,
      decodePart_ns]
  | some e =>
    rw [decodeFinish_live s e h1 he, decodeFinish_live (decodePart s) e h1 he, mapNext_next]
    simp only [apply_ite (putDecode s), ← closeDecode_local, ← closeDecode_emit_local]
    rfl

end Sys2Proof.Machine
end

section
namespace Sys2Proof.Machine

/-! ## What an instruction and a command word can do -/

/-- The commands of the encode side alone: `ENCB` and `ENCF`. -/
def IsEncode (i : Instr) : Prop := (∃ b, i = .encb b) ∨ i = .encf

/-- The commands of the decode side alone: `DECS` and `DECF`. -/
def IsDecode (i : Instr) : Prop := (∃ c, i = .decs c) ∨ i = .decf

theorem execWith_encode_local (A : Alphabet) {i : Instr} (hi : IsEncode i) (s : State) :
    ∃ dig, execWith A i s = mapNext (putEncode s dig) (execWith A i (encodePart s)) := by
  obtain ⟨b, rfl⟩ | rfl := hi
  · exact encodeByte_local A b s
  · exact encodeFinish_local A s

theorem execWith_decode_local (A : Alphabet) {i : Instr} (hi : IsDecode i) (s : State) :
    execWith A i s = mapNext (putDecode s) (execWith A i (decodePart s)) := by
  obtain ⟨c, rfl⟩ | rfl := hi
  · exact decodeChar_local A c s
  · exact decodeFinish_local s

/-- A block with every register clear, `DIG` and the channels kept (R161). -/
def clearRegisters (s : State) : State :=
  { clearDecodeSide (clearEncodeSide s) with ill := 0#1 }

/-- Everything an instruction that answers can do: nothing, clear the registers, report the status, or
what its own side alone determines. -/
theorem execWith_cases {A : Alphabet} {i : Instr} {s t : State} (h : execWith A i s = .next t) :
    (i = .nop ∧ t = s) ∨ (i = .clr ∧ t = clearRegisters s) ∨
    (i = .rdst ∧ t = emit [.stat (statusBits s)] s) ∨
    (IsEncode i ∧ ∃ dig u, execWith A i (encodePart s) = .next u ∧ t = putEncode s dig u) ∨
    (IsDecode i ∧ ∃ u, execWith A i (decodePart s) = .next u ∧ t = putDecode s u) := by
  have hencode (hi : IsEncode i) :
      ∃ dig u, execWith A i (encodePart s) = .next u ∧ t = putEncode s dig u := by
    obtain ⟨dig, hlocal⟩ := execWith_encode_local A hi s
    obtain ⟨u, hu, rfl⟩ := (mapNext_eq_next_iff _ _ _).1 (hlocal.symm.trans h)
    exact ⟨dig, u, hu, rfl⟩
  have hdecode (hi : IsDecode i) :
      ∃ u, execWith A i (decodePart s) = .next u ∧ t = putDecode s u := by
    obtain ⟨u, hu, rfl⟩ :=
      (mapNext_eq_next_iff _ _ _).1 ((execWith_decode_local A hi s).symm.trans h)
    exact ⟨u, hu, rfl⟩
  cases i with
  | nop => exact .inl ⟨rfl, (Host.Outcome.next.inj h).symm⟩
  | clr => exact .inr (.inl ⟨rfl, (Host.Outcome.next.inj h).symm⟩)
  | rdst => exact .inr (.inr (.inl ⟨rfl, (Host.Outcome.next.inj h).symm⟩))
  | encb b => exact .inr (.inr (.inr (.inl ⟨.inl ⟨b, rfl⟩, hencode (.inl ⟨b, rfl⟩)⟩)))
  | encf => exact .inr (.inr (.inr (.inl ⟨.inr rfl, hencode (.inr rfl)⟩)))
  | decs c => exact .inr (.inr (.inr (.inr ⟨.inl ⟨c, rfl⟩, hdecode (.inl ⟨c, rfl⟩)⟩)))
  | decf => exact .inr (.inr (.inr (.inr ⟨.inr rfl, hdecode (.inr rfl)⟩)))

/-- Everything a command word that answers can be: an instruction, or an illegal word (R94, R163). -/
theorem runWord_cases {ex : Meaning} {w : Word16} {s t : State} (h : runWord ex w s = .next t) :
    (∃ i, decode w = .ok i ∧ ex i s = .next t) ∨
    (∃ e, decode w = .error e ∧ t = illegalCommand s) := by
  cases hd : decode w with
  | ok i => exact .inl ⟨i, rfl, by simpa [runWord, hd] using h⟩
  | error e => exact .inr ⟨e, rfl, by simpa [runWord, hd] using h.symm⟩

/-! ## Frames -/

/-- Settles O32: an encode command only puts its encode side, `DIG` and responses into the state. -/
theorem encodeCommandsFrame : Obligations.EncodeCommandsFrame := by
  intro b i s t hi h
  have hcmd : IsEncode i := hi.imp_left fun hb => ⟨b, hb⟩
  obtain ⟨dig, hlocal⟩ := execWith_encode_local alphabet hcmd s
  rw [exec_eq_execWith, hlocal] at h
  obtain ⟨u, -, rfl⟩ := (mapNext_eq_next_iff _ _ _).1 h
  exact ⟨rfl, rfl, rfl, rfl, rfl, rfl, rfl, u.rsp, rfl⟩

/-- Settles O33: a decode command only puts its decode side and responses into the state. -/
theorem decodeCommandsFrame : Obligations.DecodeCommandsFrame := by
  intro c i s t hi h
  have hcmd : IsDecode i := hi.imp_left fun hc => ⟨c, hc⟩
  rw [exec_eq_execWith, execWith_decode_local alphabet hcmd s] at h
  obtain ⟨u, -, rfl⟩ := (mapNext_eq_next_iff _ _ _).1 h
  exact ⟨rfl, rfl, rfl, rfl, rfl, rfl, u.rsp, rfl⟩

/-! ## The scratch buffer -/

/-- `s` with another content of `DIG`. -/
def withDig (dig : Vector Digit 11) (s : State) : State := { s with dig := dig }

theorem newResponses_withDig (d d' : Vector Digit 11) (s t : State) :
    newResponses (withDig d s) (withDig d' t) = newResponses s t := rfl

/-- An instruction does the same whatever `DIG` holds, but for what it leaves there (R26). -/
theorem execWith_withDig (A : Alphabet) (i : Instr) (d : Vector Digit 11) (s : State) :
    ∃ d', execWith A i (withDig d s) = mapNext (withDig d') (execWith A i s) := by
  have hencode (hi : IsEncode i) :
      ∃ d', execWith A i (withDig d s) = mapNext (withDig d') (execWith A i s) := by
    obtain ⟨d₁, h₁⟩ := execWith_encode_local A hi s
    obtain ⟨d₂, h₂⟩ := execWith_encode_local A hi (withDig d s)
    have hpart : encodePart (withDig d s) = encodePart s := rfl
    refine ⟨d₂, ?_⟩
    rw [h₁, h₂, hpart]
    cases execWith A i (encodePart s) <;> rfl
  have hdecode (hi : IsDecode i) :
      ∃ d', execWith A i (withDig d s) = mapNext (withDig d') (execWith A i s) := by
    have hpart : decodePart (withDig d s) = decodePart s := rfl
    refine ⟨d, ?_⟩
    rw [execWith_decode_local A hi s, execWith_decode_local A hi (withDig d s), hpart]
    cases execWith A i (decodePart s) <;> rfl
  cases i with
  | nop => exact ⟨d, rfl⟩
  | clr => exact ⟨d, rfl⟩
  | rdst => exact ⟨d, rfl⟩
  | encb b => exact hencode (.inl ⟨b, rfl⟩)
  | encf => exact hencode (.inr rfl)
  | decs c => exact hdecode (.inl ⟨c, rfl⟩)
  | decf => exact hdecode (.inr rfl)

theorem runWord_withDig (A : Alphabet) (w : Word16) (d : Vector Digit 11) (s : State) :
    ∃ d', runWord (execWith A) w (withDig d s) =
      mapNext (withDig d') (runWord (execWith A) w s) := by
  unfold runWord
  cases decode w with
  | ok i => exact execWith_withDig A i d s
  | error e => exact ⟨d, rfl⟩

theorem runWords_withDig (A : Alphabet) (ws : List Word16) (d : Vector Digit 11) (s : State) :
    ∃ d', runWords (execWith A) ws (withDig d s) =
      mapNext (withDig d') (runWords (execWith A) ws s) := by
  induction ws generalizing d s with
  | nil => exact ⟨d, rfl⟩
  | cons w ws ih =>
    obtain ⟨d', hw⟩ := runWord_withDig A w d s
    simp only [runWords, hw]
    cases runWord (execWith A) w s with
    | next t => exact ih d' t
    | fault r => exact ⟨d, rfl⟩
    | refused r => exact ⟨d, rfl⟩

theorem trace_withDig (A : Alphabet) (ws : List Word16) (d : Vector Digit 11) (s : State) :
    trace (execWith A) ws (withDig d s) = trace (execWith A) ws s := by
  induction ws generalizing d s with
  | nil => rfl
  | cons w ws ih =>
    obtain ⟨d', hw⟩ := runWord_withDig A w d s
    simp only [trace, hw]
    cases runWord (execWith A) w s with
    | next t => simp only [mapNext_next, newResponses_withDig, ih]
    | fault r => rfl
    | refused r => rfl

/-- Settles O43: a run from the same state with another `DIG` has the same trace and ends in the same
state but for `DIG`. -/
theorem scratchBufferIsNotObservable : Obligations.ScratchBufferIsNotObservable := by
  intro A ws s dig
  refine ⟨trace_withDig A ws dig s, fun t ht => ?_⟩
  obtain ⟨dig', h⟩ := runWords_withDig A ws dig s
  rw [ht] at h
  exact ⟨dig', h⟩

/-! ## The illegal-command flag -/

/-- No instruction but `CLR` writes `ILL` (R161, R163). -/
theorem execWith_ill {A : Alphabet} {i : Instr} {s t : State} (h : execWith A i s = .next t) :
    t.ill = s.ill ∨ (i = .clr ∧ t.ill = 0#1) := by
  obtain ⟨-, rfl⟩ | ⟨rfl, rfl⟩ | ⟨-, rfl⟩ | ⟨-, dig, u, -, rfl⟩ | ⟨-, u, -, rfl⟩ := execWith_cases h
  · exact .inl rfl
  · exact .inr ⟨rfl, rfl⟩
  · exact .inl rfl
  · exact .inl rfl
  · exact .inl rfl

/-- Settles O38: of the acts of the host only an illegal word, `CLR` and reset write `ILL`. -/
theorem illegalFlagIsSticky : Obligations.IllegalFlagIsSticky := by
  intro A s t h hne
  obtain ⟨-, rfl⟩ | ⟨w, rest, i, hh, hd, hi⟩ | ⟨w, rest, e, hh, hd, rfl⟩ | ⟨rest, -, rfl⟩ |
    ⟨rest, hh, rfl⟩ := stepBy_cases h
  · exact absurd rfl hne
  · obtain hill | ⟨rfl, hill⟩ := execWith_ill hi
    · exact absurd hill hne
    · obtain rfl := encode_eq_of_decode hd
      exact .inr ⟨hill, .inl (by rw [hh]; rfl)⟩
  · exact .inl ⟨rfl, w, e, by rw [hh]; rfl, hd⟩
  · exact absurd rfl hne
  · exact .inr ⟨rfl, .inr (by rw [hh]; rfl)⟩

/-! ## The invariant R30 -/

/-- (a) and (b) of R30: the encode side. -/
def EncodeLegal (s : State) : Prop :=
  s.nb.toNat ≤ 7 ∧ s.eacc.toNat < 2 ^ (8 * s.nb.toNat)

/-- (c) to (f) of R30 and the character of R27: the decode side. -/
def DecodeLegal (A : Alphabet) (s : State) : Prop :=
  s.ns.toNat ≤ 10 ∧
  (s.err = 0#3 ∨ s.err = 1#3 ∨ s.err = 3#3) ∧
  (s.err = 0#3 → s.dacc.toNat < 60 ^ s.ns.toNat) ∧
  (s.err = 3#3 → s.dacc = 0#65) ∧
  (s.err ≠ 1#3 → s.echr = 0#8) ∧
  (s.err = 1#3 → (inv A s.echr).valid = false)

/-- The invariant is one condition on each side. -/
theorem inv_iff (A : Alphabet) (s : State) : Inv A s ↔ EncodeLegal s ∧ DecodeLegal A s :=
  and_assoc.symm

theorem EncodeLegal.congr {s t : State} (h : encodePart t = encodePart s) (hs : EncodeLegal s) :
    EncodeLegal t := by
  have hpart : EncodeLegal (encodePart s) := hs
  rw [← h] at hpart
  exact hpart

theorem DecodeLegal.congr {A : Alphabet} {s t : State} (h : decodePart t = decodePart s)
    (hs : DecodeLegal A s) : DecodeLegal A t := by
  have hpart : DecodeLegal A (decodePart s) := hs
  rw [← h] at hpart
  exact hpart

theorem encodeLegal_of_clear {s : State} (hnb : s.nb = 0#4) (heacc : s.eacc = 0#64) :
    EncodeLegal s := by
  simp [EncodeLegal, hnb, heacc]

theorem decodeLegal_of_clear (A : Alphabet) {s : State} (hdacc : s.dacc = 0#65) (hns : s.ns = 0#4)
    (herr : s.err = 0#3) (hechr : s.echr = 0#8) : DecodeLegal A s := by
  simp [DecodeLegal, hdacc, hns, herr, hechr]

/-- At a block boundary `EACC` is 0 (R30 (b)). -/
theorem EncodeLegal.eacc_of_idle {s : State} (hs : EncodeLegal s) (h0 : s.nb = 0#4) :
    s.eacc = 0#64 := by
  obtain ⟨-, heacc⟩ := hs
  simp only [h0, BitVec.toNat_ofNat] at heacc
  exact BitVec.eq_of_toNat_eq (by simpa using heacc)

/-- `ENCF` leaves the encode side clear (R131). -/
theorem encodeFinish_clear {A : Alphabet} {s t : State} (hs : EncodeLegal s)
    (h : encodeFinish A s = .next t) : t.nb = 0#4 ∧ t.eacc = 0#64 := by
  by_cases h0 : s.nb = 0#4
  · rw [encodeFinish_empty A s h0] at h
    obtain rfl := Host.Outcome.next.inj h
    exact ⟨h0, hs.eacc_of_idle h0⟩
  · cases hK : ktab s.nb.toNat with
    | none =>
      rw [encodeFinish_stop A s ((ktab_eq_none_iff _).1 hK)] at h
      cases h
    | some K =>
      rw [encodeFinish_partial A s K h0 hK] at h
      obtain rfl := Host.Outcome.next.inj h
      exact ⟨rfl, rfl⟩

/-- A block is full exactly at its 8th byte (R22). -/
theorem succ_eq_eight_iff (n : BitVec 4) : n + 1#4 = 8#4 ↔ n.toNat = 7 := by
  revert n; decide

/-- A group is full exactly at its 11th symbol (R24). -/
theorem succ_eq_eleven_iff (n : BitVec 4) : n + 1#4 = 11#4 ↔ n.toNat = 10 := by
  revert n; decide

/-- The counters do not wrap within a block or a group (R22, R24). -/
theorem counter_succ_toNat {n : BitVec 4} (h : n.toNat < 15) : (n + 1#4).toNat = n.toNat + 1 := by
  simp only [BitVec.toNat_add, BitVec.toNat_ofNat]
  omega

/-- A block that has room for a byte has the top byte of `EACC` free (R30 (b), R110). -/
theorem EncodeLegal.eacc_lt {s : State} (hs : EncodeLegal s) : s.eacc.toNat < 2 ^ 56 :=
  hs.2.trans_le (Nat.pow_le_pow_right (by decide) (Nat.mul_le_mul_left 8 hs.1))

theorem encodeByte_keeps_encodeLegal {A : Alphabet} {b : Byte} {s t : State} (hs : EncodeLegal s)
    (h : encodeByte A b s = .next t) : EncodeLegal t := by
  by_cases hfull : s.nb + 1#4 = 8#4
  · rw [encodeByte_close A b s hfull] at h
    obtain rfl := Host.Outcome.next.inj h
    exact encodeLegal_of_clear rfl rfl
  · rw [encodeByte_open A b s hfull] at h
    obtain rfl := Host.Outcome.next.inj h
    have heacc := shiftIn_toNat s.eacc b hs.eacc_lt
    obtain ⟨hnb, hlt⟩ := hs
    rw [succ_eq_eight_iff] at hfull
    have hcount := counter_succ_toNat (n := s.nb) (by omega)
    refine ⟨?_, ?_⟩
    · change (s.nb + 1#4).toNat ≤ 7
      omega
    · change (shiftIn s.eacc b).toNat < 2 ^ (8 * (s.nb + 1#4).toNat)
      rw [heacc, hcount]
      exact mul_256_add_byte_lt b hlt

/-- The encode side stays legal under every instruction. -/
theorem execWith_keeps_encodeLegal {A : Alphabet} {i : Instr} {s t : State} (hs : EncodeLegal s)
    (h : execWith A i s = .next t) : EncodeLegal t := by
  obtain ⟨-, rfl⟩ | ⟨-, rfl⟩ | ⟨-, rfl⟩ | ⟨hi, -⟩ | ⟨-, u, -, rfl⟩ := execWith_cases h
  · exact hs
  · exact encodeLegal_of_clear rfl rfl
  · exact hs
  · obtain ⟨b, rfl⟩ | rfl := hi
    · exact encodeByte_keeps_encodeLegal hs h
    · obtain ⟨hnb, heacc⟩ := encodeFinish_clear hs h
      exact encodeLegal_of_clear hnb heacc
  · exact hs.congr rfl

/-- A clean or draining stream that meets an invalid character is dead with that character (R201). -/
theorem raise_invalidCharacter (c : Byte) (s : State) (h : s.err = 0#3 ∨ s.err = 3#3) :
    raise (.invalidCharacter c) s = { s with err := 1#3, echr := c } := by
  obtain h | h := h <;> simp [raise, merge, mergeChar, errorCode, h]

/-- A clean stream whose group is out of range drains (R203). -/
theorem raise_valueOutOfRange (s : State) (h : s.err = 0#3) :
    raise .valueOutOfRange s = { s with err := 3#3 } := by
  simp [raise, merge, mergeChar, errorCode, h]

/-- A group that has room for a digit has a value below `60^10` (R30 (e), R114). -/
theorem DecodeLegal.dacc_lt {A : Alphabet} {s : State} (hs : DecodeLegal A s) (h : s.err = 0#3) :
    s.dacc.toNat < 60 ^ 10 := by
  obtain ⟨hns, -, hdacc, -⟩ := hs
  exact (hdacc h).trans_le (Nat.pow_le_pow_right (by decide) hns)

/-- What `DECS` of a digit makes of the clean decode side (R141): the digit is taken, or the full group
is delivered, or the stream drains. -/
theorem acceptDigit_cases (d : Digit) (s : State) (h : s.err = 0#3) :
    (s.ns.toNat ≠ 10 ∧ acceptDigit d s = { s with dacc := horner s.dacc d, ns := s.ns + 1#4 }) ∨
    (s.ns.toNat = 10 ∧ (horner s.dacc d).toNat < 2 ^ 64 ∧ acceptDigit d s =
      { emit ((toBytes (horner s.dacc d) 8).map .byte) s with dacc := 0#65, ns := 0#4 }) ∨
    (s.ns.toNat = 10 ∧ 2 ^ 64 ≤ (horner s.dacc d).toNat ∧ acceptDigit d s =
      { s with dacc := 0#65, ns := 0#4, err := 3#3 }) := by
  by_cases hfull : s.ns + 1#4 = 11#4
  · have hns := (succ_eq_eleven_iff _).1 hfull
    cases hv : inRange (horner s.dacc d) 8 with
    | true => exact .inr (.inl ⟨hns, (inRange_iff _ _).1 hv, acceptDigit_inRange d s hfull hv⟩)
    | false =>
      refine .inr (.inr ⟨hns, by simpa [inRange] using hv, ?_⟩)
      rw [acceptDigit_outOfRange d s hfull hv, raise_valueOutOfRange s h]
  · exact .inl ⟨mt (succ_eq_eleven_iff _).2 hfull, acceptDigit_open d s hfull⟩

theorem acceptDigit_keeps_decodeLegal {A : Alphabet} {s : State} (d : Digit)
    (hs : DecodeLegal A s) (h : s.err = 0#3) : DecodeLegal A (acceptDigit d s) := by
  have hhorner := horner_toNat_exact s.dacc d (hs.dacc_lt h)
  obtain ⟨hns, -, hdacc, -, hechr, -⟩ := hs
  have hclean : s.echr = 0#8 := hechr (by simp [h])
  obtain ⟨hopen, heq⟩ | ⟨-, -, heq⟩ | ⟨-, -, heq⟩ := acceptDigit_cases d s h
  · have hcount := counter_succ_toNat (n := s.ns) (by omega)
    have hlt := mul_sixty_add_digit_lt d (hdacc h)
    rw [heq]
    simp only [DecodeLegal, h, hclean, hhorner, hcount]
    exact ⟨by omega, by simp, fun _ => hlt, by simp, by simp, by simp⟩
  · rw [heq]
    exact decodeLegal_of_clear A rfl rfl h hclean
  · rw [heq]
    simp [DecodeLegal, hclean]

theorem decodeChar_keeps_decodeLegal {A : Alphabet} {c : Byte} {s t : State}
    (hs : DecodeLegal A s) (h : decodeChar A c s = .next t) : DecodeLegal A t := by
  have ⟨hns, herr, _, hdrained, hechr, _⟩ := hs
  by_cases h1 : s.err = 1#3
  · rw [decodeChar_dead A c s h1] at h
    exact Host.Outcome.next.inj h ▸ hs
  have hlive : s.err = 0#3 ∨ s.err = 3#3 := by tauto
  cases hc : (inv A c).valid with
  | false =>
    rw [decodeChar_invalid A c s h1 hc, raise_invalidCharacter c s hlive] at h
    obtain rfl := Host.Outcome.next.inj h
    simp [DecodeLegal, hns, hc]
  | true =>
    obtain h0 | h3 := hlive
    · rw [decodeChar_clean A c s h1 (by simp [h0]) hc] at h
      exact Host.Outcome.next.inj h ▸ acceptDigit_keeps_decodeLegal _ hs h0
    · rw [decodeChar_drain A c s h3 hc] at h
      obtain rfl := Host.Outcome.next.inj h
      have hcount : (drainDigit s).ns.toNat ≤ 10 := by
        simp only [drainDigit_ns, BitVec.toNat_ofNat]
        omega
      exact ⟨hcount, .inr (.inr h3), by simp [h3], fun _ => hdrained h3, fun _ => hechr h1,
        by simp [h3]⟩

/-- `DECF` leaves the decode side clear (R142). -/
theorem decodeFinish_clear {s t : State} (h : decodeFinish s = .next t) :
    t.dacc = 0#65 ∧ t.ns = 0#4 ∧ t.err = 0#3 ∧ t.echr = 0#8 := by
  by_cases h1 : s.err = 1#3
  · rw [decodeFinish_dead s h1] at h
    obtain rfl := Host.Outcome.next.inj h
    exact ⟨rfl, rfl, rfl, rfl⟩
  · cases he : kinv s.ns.toNat with
    | none =>
      rw [decodeFinish_stop s h1 ((kinv_eq_none_iff _).1 he)] at h
      cases h
    | some e =>
      rw [decodeFinish_live s e h1 he] at h
      obtain rfl := Host.Outcome.next.inj h
      split_ifs <;> exact ⟨rfl, rfl, rfl, rfl⟩

/-- The decode side stays legal under every instruction. -/
theorem execWith_keeps_decodeLegal {A : Alphabet} {i : Instr} {s t : State}
    (hs : DecodeLegal A s) (h : execWith A i s = .next t) : DecodeLegal A t := by
  obtain ⟨-, rfl⟩ | ⟨-, rfl⟩ | ⟨-, rfl⟩ | ⟨-, dig, u, -, rfl⟩ | ⟨hi, -⟩ := execWith_cases h
  · exact hs
  · exact decodeLegal_of_clear A rfl rfl rfl rfl
  · exact hs
  · exact hs.congr rfl
  · obtain ⟨c, rfl⟩ | rfl := hi
    · exact decodeChar_keeps_decodeLegal hs h
    · obtain ⟨hdacc, hns, herr, hechr⟩ := decodeFinish_clear h
      exact decodeLegal_of_clear A hdacc hns herr hechr

theorem execWith_keeps_inv {A : Alphabet} {i : Instr} {s t : State} (hs : Inv A s)
    (h : execWith A i s = .next t) : Inv A t := by
  obtain ⟨hencode, hdecode⟩ := (inv_iff A s).1 hs
  exact (inv_iff A t).2
    ⟨execWith_keeps_encodeLegal hencode h, execWith_keeps_decodeLegal hdecode h⟩

theorem runWord_keeps_inv {A : Alphabet} {w : Word16} {s t : State} (hs : Inv A s)
    (h : runWord (execWith A) w s = .next t) : Inv A t := by
  obtain ⟨i, -, hi⟩ | ⟨e, -, rfl⟩ := runWord_cases h
  · exact execWith_keeps_inv hs hi
  · exact hs

/-- A state whose registers are all clear is legal (R31, R30). -/
theorem inv_of_clear (A : Alphabet) {s : State} (hnb : s.nb = 0#4) (heacc : s.eacc = 0#64)
    (hdacc : s.dacc = 0#65) (hns : s.ns = 0#4) (herr : s.err = 0#3) (hechr : s.echr = 0#8) :
    Inv A s :=
  (inv_iff A s).2 ⟨encodeLegal_of_clear hnb heacc, decodeLegal_of_clear A hdacc hns herr hechr⟩

theorem stepWith_keeps_inv {A : Alphabet} {s t : State} (hs : Inv A s)
    (h : stepWith A s = .next t) : Inv A t := by
  obtain ⟨-, rfl⟩ | ⟨w, rest, i, -, -, hi⟩ | ⟨w, rest, e, -, -, rfl⟩ | ⟨rest, -, rfl⟩ |
    ⟨rest, -, rfl⟩ := stepBy_cases h
  · exact hs
  · exact execWith_keeps_inv (s := { s with host := rest }) hs hi
  · exact hs
  · exact hs
  · exact inv_of_clear A rfl rfl rfl rfl rfl rfl

/-- Settles O41: R30 is kept on each side by each instruction, and by every other act of the host. -/
theorem everyStepKeepsTheInvariant : Obligations.EveryStepKeepsTheInvariant :=
  ⟨fun s _ hs h => stepWith_keeps_inv hs ((step_eq_stepWith s).symm.trans h),
    fun _ _ _ => stepWith_keeps_inv⟩

/-- Settles O1: the values of the reset state, field by field. -/
theorem resetRegistersAreZero : Obligations.ResetRegistersAreZero :=
  ⟨rfl, rfl, rfl, rfl, rfl, rfl, rfl, rfl⟩

/-- Settles O40: the reset state has every register clear. -/
theorem resetStateIsLegal : Obligations.ResetStateIsLegal :=
  fun A => inv_of_clear A rfl rfl rfl rfl rfl rfl

end Sys2Proof.Machine
end

section
namespace Sys2Proof.Machine

/-! ## Legal states answer -/

/-- `ENCF` answers wherever `NB` indexes `KTAB` (R59). -/
theorem encodeFinish_answers (A : Alphabet) (s : State) (h : s.nb.toNat ≤ 8) :
    Answers (encodeFinish A s) := by
  by_cases h0 : s.nb = 0#4
  · exact ⟨_, encodeFinish_empty A s h0⟩
  · cases hK : ktab s.nb.toNat with
    | none => have := (ktab_eq_none_iff _).1 hK; omega
    | some K => exact ⟨_, encodeFinish_partial A s K h0 hK⟩

/-- `DECF` answers wherever the character is recorded or `NS` indexes `KINV` (R59). -/
theorem decodeFinish_answers (s : State) (h : s.err = 1#3 ∨ s.ns.toNat ≤ 10) :
    Answers (decodeFinish s) := by
  by_cases h1 : s.err = 1#3
  · exact ⟨_, decodeFinish_dead s h1⟩
  · cases he : kinv s.ns.toNat with
    | none => have := (kinv_eq_none_iff _).1 he; have := h.resolve_left h1; omega
    | some e => exact ⟨_, decodeFinish_live s e h1 he⟩

theorem encodeByte_answers (A : Alphabet) (b : Byte) (s : State) : Answers (encodeByte A b s) := by
  by_cases hfull : s.nb + 1#4 = 8#4
  · exact ⟨_, encodeByte_close A b s hfull⟩
  · exact ⟨_, encodeByte_open A b s hfull⟩

/-- No instruction stops in a state whose counters index the tables (R59, R200). -/
theorem execWith_answers (A : Alphabet) (i : Instr) (s : State)
    (hencf : i = .encf → s.nb.toNat ≤ 8) (hdecf : i = .decf → s.err = 1#3 ∨ s.ns.toNat ≤ 10) :
    Answers (execWith A i s) := by
  cases i with
  | nop => exact ⟨_, rfl⟩
  | clr => exact ⟨_, rfl⟩
  | rdst => exact ⟨_, rfl⟩
  | encb b => exact encodeByte_answers A b s
  | encf => exact encodeFinish_answers A s (hencf rfl)
  | decs c => exact ⟨_, decodeChar_eq A c s⟩
  | decf => exact decodeFinish_answers s (hdecf rfl)

/-- Every command word is answered in a legal state. -/
theorem runWord_answers {A : Alphabet} {s : State} (hs : Inv A s) (w : Word16) :
    Answers (runWord (execWith A) w s) := by
  obtain ⟨hnb, -, hns, -⟩ := hs
  unfold runWord
  cases decode w with
  | ok i => exact execWith_answers A i s (fun _ => by omega) (fun _ => .inr hns)
  | error e => exact ⟨_, rfl⟩

/-! ## One side alone -/

/-- The commands chosen by `p` own the part `part` of the state: no other command writes it, and what
they answer and leave there depends on it alone. -/
structure OwnedBy (A : Alphabet) (p : Word16 → Bool) (part : State → State) : Prop where
  kept : ∀ {w s t}, p w = false → runWord (execWith A) w s = .next t → part t = part s
  determined : ∀ {w s s' t t'}, p w = true → part s = part s' →
    runWord (execWith A) w s = .next t → runWord (execWith A) w s' = .next t' →
    newResponses s t = newResponses s' t' ∧ part t = part t'

theorem writesEncodeSide_iff (w : Word16) :
    writesEncodeSide w = true ↔ ∃ i, decode w = .ok i ∧ (IsEncode i ∨ i = .clr) := by
  unfold writesEncodeSide
  split <;> simp_all [IsEncode]

theorem writesDecodeSide_iff (w : Word16) :
    writesDecodeSide w = true ↔ ∃ i, decode w = .ok i ∧ (IsDecode i ∨ i = .clr) := by
  unfold writesDecodeSide
  split <;> simp_all [IsDecode]

theorem newResponses_clearRegisters (s : State) : newResponses s (clearRegisters s) = [] :=
  newResponses_append s _ _ (List.append_nil _).symm

/-- The commands `CLR` and `IsOwn` own a part that they alone write, if each of the latter does to a
state what it does to that part alone. -/
theorem OwnedBy.of_local {A : Alphabet} {p : Word16 → Bool} {part : State → State}
    {IsOwn : Instr → Prop}
    (hp : ∀ w, p w = true ↔ ∃ i, decode w = .ok i ∧ (IsOwn i ∨ i = .clr))
    (hclear : ∀ s s', part (clearRegisters s) = part (clearRegisters s'))
    (hillegal : ∀ s, part (illegalCommand s) = part s)
    (hother : ∀ {i s t}, ¬ (IsOwn i ∨ i = .clr) → execWith A i s = .next t → part t = part s)
    (hown : ∀ {i s t}, IsOwn i → execWith A i s = .next t →
      ∃ u, execWith A i (part s) = .next u ∧ newResponses s t = u.rsp ∧ part t = part u) :
    OwnedBy A p part where
  kept {w s t} hw h := by
    obtain ⟨i, hd, hi⟩ | ⟨e, -, rfl⟩ := runWord_cases h
    · exact hother (fun hi' => by simp [(hp w).2 ⟨i, hd, hi'⟩] at hw) hi
    · exact hillegal s
  determined {w s s' t t'} hw hpart h h' := by
    obtain ⟨i, hd, hi⟩ := (hp w).1 hw
    simp only [runWord, hd] at h h'
    obtain hi | rfl := hi
    · obtain ⟨u, hu, hrsp, hpu⟩ := hown hi h
      obtain ⟨u', hu', hrsp', hpu'⟩ := hown hi h'
      obtain rfl : u = u' := Host.Outcome.next.inj (hu.symm.trans (hpart ▸ hu'))
      exact ⟨hrsp.trans hrsp'.symm, hpu.trans hpu'.symm⟩
    · obtain rfl := Host.Outcome.next.inj h
      obtain rfl := Host.Outcome.next.inj h'
      exact ⟨(newResponses_clearRegisters s).trans (newResponses_clearRegisters s').symm,
        hclear s s'⟩

/-- The words `ENCB`, `ENCF` and `CLR` own the encode side (R20, R132 (d)). -/
theorem encodeSide_owned (A : Alphabet) : OwnedBy A writesEncodeSide encodePart := by
  refine .of_local writesEncodeSide_iff (fun _ _ => rfl) (fun _ => rfl) ?_ ?_
  · intro i s t hi h
    obtain ⟨-, rfl⟩ | ⟨hclr, -⟩ | ⟨-, rfl⟩ | ⟨hown, -⟩ | ⟨-, u, -, rfl⟩ := execWith_cases h
    · rfl
    · exact absurd (.inr hclr) hi
    · rfl
    · exact absurd (.inl hown) hi
    · rfl
  · intro i s t hi h
    obtain ⟨dig, hlocal⟩ := execWith_encode_local A hi s
    obtain ⟨u, hu, rfl⟩ := (mapNext_eq_next_iff _ _ _).1 (hlocal.symm.trans h)
    exact ⟨u, hu, newResponses_append s _ _ rfl, rfl⟩

/-- The words `DECS`, `DECF` and `CLR` own the decode side (R20, R143 (b)). -/
theorem decodeSide_owned (A : Alphabet) : OwnedBy A writesDecodeSide decodePart := by
  refine .of_local writesDecodeSide_iff (fun _ _ => rfl) (fun _ => rfl) ?_ ?_
  · intro i s t hi h
    obtain ⟨-, rfl⟩ | ⟨hclr, -⟩ | ⟨-, rfl⟩ | ⟨-, dig, u, -, rfl⟩ | ⟨hown, -⟩ := execWith_cases h
    · rfl
    · exact absurd (.inr hclr) hi
    · rfl
    · rfl
    · exact absurd (.inl hown) hi
  · intro i s t hi h
    rw [execWith_decode_local A hi] at h
    obtain ⟨u, hu, rfl⟩ := (mapNext_eq_next_iff _ _ _).1 h
    exact ⟨u, hu, newResponses_append s _ _ rfl, rfl⟩

theorem responsesOf_cons (p : Word16 → Bool) (w : Word16) (rs : List Word16)
    (tr : List (Word16 × List Word16)) :
    responsesOf p ((w, rs) :: tr) = if p w then rs ++ responsesOf p tr else responsesOf p tr := by
  cases hw : p w <;> simp [responsesOf, hw]

/-- Two legal states with the same part of an owner answer the owner's commands alike, with other
commands interleaved in the one run and none in the other. -/
theorem OwnedBy.responsesOf_filter {A : Alphabet} {p : Word16 → Bool} {part : State → State}
    (hp : OwnedBy A p part) (ws : List Word16) {s s' : State} (hs : Inv A s) (hs' : Inv A s')
    (hpart : part s = part s') :
    responsesOf p (trace (execWith A) ws s) =
      responsesOf p (trace (execWith A) (ws.filter p) s') := by
  induction ws generalizing s s' with
  | nil => rfl
  | cons w ws ih =>
    obtain ⟨t, ht⟩ := runWord_answers hs w
    have htInv := runWord_keeps_inv hs ht
    rw [trace_cons_next ws ht, responsesOf_cons]
    cases hw : p w with
    | false =>
      rw [List.filter_cons_of_neg (by simp [hw]), if_neg (by simp)]
      exact ih htInv hs' ((hp.kept hw ht).trans hpart)
    | true =>
      obtain ⟨t', ht'⟩ := runWord_answers hs' w
      obtain ⟨hrsp, hpart'⟩ := hp.determined hw hpart ht ht'
      rw [List.filter_cons_of_pos hw, trace_cons_next _ ht', responsesOf_cons, hw, hrsp,
        ih htInv (runWord_keeps_inv hs' ht') hpart']

/-- Settles O44: each side is owned by its own commands. -/
theorem theTwoSidesDoNotInterfere : Obligations.TheTwoSidesDoNotInterfere :=
  fun A ws _ hs => ⟨(encodeSide_owned A).responsesOf_filter ws hs hs rfl,
    (decodeSide_owned A).responsesOf_filter ws hs hs rfl⟩

end Sys2Proof.Machine
end

section
namespace Sys2Proof.Machine

/-! ## The blocks of a byte sequence and the groups of a character sequence -/

/-- The full runs of `k` elements of a list, left to right (R57). -/
def fullChunks {α : Type} (k : Nat) (l : List α) : List (List α) :=
  (List.range (l.length / k)).map fun m => chunk k m l

/-- The elements after the last full run of `k`. -/
def lastChunk {α : Type} (k : Nat) (l : List α) : List α := l.drop (k * (l.length / k))

@[simp] theorem fullChunks_nil {α : Type} (k : Nat) : fullChunks k ([] : List α) = [] := by
  simp [fullChunks]

@[simp] theorem lastChunk_nil {α : Type} (k : Nat) : lastChunk k ([] : List α) = [] := by
  simp [lastChunk]

@[simp] theorem fullChunks_length {α : Type} (k : Nat) (l : List α) :
    (fullChunks k l).length = l.length / k := by
  simp [fullChunks]

@[simp] theorem lastChunk_length {α : Type} (k : Nat) (l : List α) :
    (lastChunk k l).length = l.length % k := by
  have hdiv := Nat.div_add_mod l.length k
  rw [lastChunk, List.length_drop]
  omega

/-- A full run does not change when elements follow. -/
theorem chunk_append {α : Type} {k m : Nat} {l : List α} (l' : List α)
    (h : k * m + k ≤ l.length) : chunk k m (l ++ l') = chunk k m l := by
  rw [chunk, chunk, List.drop_append_of_le_length (by omega),
    List.take_append_of_le_length (by rw [List.length_drop]; omega)]

/-- Every full run lies within the list. -/
theorem chunk_end_le {k m n : Nat} (h : m < n / k) : k * m + k ≤ n :=
  calc k * m + k = k * (m + 1) := by ring
    _ ≤ k * (n / k) := Nat.mul_le_mul_left k h
    _ ≤ n := Nat.mul_div_le n k

section
variable {α : Type} {k : Nat} {l : List α} (x : α)

theorem lastChunk_append_eq : l.drop (k * (l.length / k)) ++ [x] =
    (l ++ [x]).drop (k * (l.length / k)) :=
  (List.drop_append_of_le_length (Nat.mul_div_le l.length k)).symm

theorem map_chunk_append_eq : ((List.range (l.length / k)).map fun m => chunk k m (l ++ [x])) =
    fullChunks k l :=
  List.map_congr_left fun _ hm => chunk_append _ (chunk_end_le (List.mem_range.1 hm))

theorem append_length_eq :
    (l ++ [x]).length = k * (l.length / k) + (l.length % k + 1) := by
  rw [← Nat.add_assoc, Nat.div_add_mod, List.length_append, List.length_singleton]

/-- One more element that does not fill a run. -/
theorem append_div_of_open (hk : 0 < k) (h : l.length % k + 1 ≠ k) :
    (l ++ [x]).length / k = l.length / k := by
  have hlt := Nat.mod_lt l.length hk
  have hrest : (l.length % k + 1) / k = 0 := Nat.div_eq_of_lt (by omega)
  rw [append_length_eq (k := k), Nat.mul_add_div hk, hrest, Nat.add_zero]

/-- One more element that fills a run. -/
theorem append_div_of_full (h : l.length % k + 1 = k) :
    (l ++ [x]).length / k = l.length / k + 1 := by
  have hk : 0 < k := by omega
  rw [append_length_eq (k := k), h, Nat.mul_add_div hk, Nat.div_self hk]

theorem fullChunks_append_open (hk : 0 < k) (h : l.length % k + 1 ≠ k) :
    fullChunks k (l ++ [x]) = fullChunks k l := by
  rw [fullChunks, append_div_of_open x hk h, map_chunk_append_eq]

theorem lastChunk_append_open (hk : 0 < k) (h : l.length % k + 1 ≠ k) :
    lastChunk k (l ++ [x]) = lastChunk k l ++ [x] := by
  rw [lastChunk, append_div_of_open x hk h, lastChunk, lastChunk_append_eq]

theorem lastChunk_append_full (h : l.length % k + 1 = k) : lastChunk k (l ++ [x]) = [] := by
  refine List.eq_nil_of_length_eq_zero ?_
  rw [lastChunk_length, List.length_append, List.length_singleton,
    ← Nat.mod_add_mod, h, Nat.mod_self]

theorem fullChunks_append_full (h : l.length % k + 1 = k) :
    fullChunks k (l ++ [x]) = fullChunks k l ++ [lastChunk k l ++ [x]] := by
  have hlast : chunk k (l.length / k) (l ++ [x]) = lastChunk k l ++ [x] := by
    rw [chunk, ← lastChunk_append_eq]
    exact List.take_of_length_le (by change (lastChunk k l ++ [x]).length ≤ k; simp [h])
  rw [fullChunks, append_div_of_full x h, List.range_succ, List.map_append,
    map_chunk_append_eq, List.map_singleton, hlast]

end

@[simp] theorem encodeBlock_length (A : Alphabet) (block : List Byte) (K : Nat) :
    (encodeBlock A block K).length = K := by
  simp [encodeBlock]

/-- The symbols of the full blocks of a byte sequence, 11 each (R170). -/
def fullBlockSymbols (A : Alphabet) (B : List Byte) : List Byte :=
  (fullChunks 8 B).flatMap fun block => encodeBlock A block 11

@[simp] theorem fullBlockSymbols_length (A : Alphabet) (B : List Byte) :
    (fullBlockSymbols A B).length = 11 * (B.length / 8) := by
  simp [fullBlockSymbols, List.length_flatMap, Nat.mul_comm]

/-- `Encode(B)` begins with the symbols of the full blocks (R170). -/
theorem encodeBuffer_take (A : Alphabet) (B : List Byte) :
    (encodeBuffer A B).take (11 * (B.length / 8)) = fullBlockSymbols A B := by
  have hfull : ((List.range (B.length / 8)).flatMap fun m => encodeBlock A (chunk 8 m B) 11) =
      fullBlockSymbols A B := by
    rw [fullBlockSymbols, fullChunks, List.flatMap_map]
  rw [encodeBuffer, hfull, List.take_left' (fullBlockSymbols_length A B)]

/-! ## Runs of instructions -/

theorem runWord_encode (ex : Meaning) (i : Instr) (s : State) : runWord ex (encode i) s = ex i s := by
  simp [runWord]

/-- A run goes on where its first part ended (R243). -/
theorem runWords_append {ex : Meaning} {ws : List Word16} {s t : State}
    (h : runWords ex ws s = .next t) (ws' : List Word16) :
    runWords ex (ws ++ ws') s = runWords ex ws' t := by
  induction ws generalizing s with
  | nil =>
    obtain rfl := Host.Outcome.next.inj h
    rfl
  | cons w ws ih =>
    cases hw : runWord ex w s with
    | next u =>
      rw [List.cons_append, runWords_cons_next _ hw]
      exact ih ((runWords_cons_next ws hw).symm.trans h)
    | fault r => simp [runWords, hw] at h
    | refused r => simp [runWords, hw] at h

/-- A run of one instruction more. -/
theorem runWords_words_append_singleton {ex : Meaning} {is : List Instr} {i : Instr} {s t u : State}
    (h : runWords ex (words is) s = .next t) (hi : ex i t = .next u) :
    runWords ex (words (is ++ [i])) s = .next u := by
  rw [words, List.map_append, ← words, runWords_append h]
  exact runWords_cons_next [] ((runWord_encode ex i t).trans hi)

/-! ## The encode side in a stream -/

/-- After the bytes `B`, from a block boundary in `s` on: `NB` counts the open block, `EACC` is its
value, and the full blocks have been answered (R21, R22, R132 (b)). -/
structure EncodedSoFar (A : Alphabet) (B : List Byte) (s t : State) : Prop where
  nb : t.nb.toNat = B.length % 8
  eacc : t.eacc.toNat = blockValue (lastChunk 8 B)
  rsp : t.rsp = s.rsp ++ (fullBlockSymbols A B).map fun c => responseWord (.sym c)

theorem EncodedSoFar.nil (A : Alphabet) {s : State} (hs : Inv A s) (h0 : EncodeIdle s) :
    EncodedSoFar A [] s s where
  nb := by simp [show s.nb = 0#4 from h0]
  eacc := by simp [((inv_iff A s).1 hs).1.eacc_of_idle h0]
  rsp := by simp [fullBlockSymbols]

/-- `ENCB` takes the stream one byte further (R130). -/
theorem EncodedSoFar.encodeByte {A : Alphabet} {B : List Byte} {s t : State}
    (h : EncodedSoFar A B s t) (b : Byte) :
    ∃ u, encodeByte A b t = .next u ∧ EncodedSoFar A (B ++ [b]) s u := by
  have hroom : t.eacc.toNat < 2 ^ 56 := by
    have hlt := blockValue_lt (lastChunk 8 B)
    rw [← h.eacc, lastChunk_length] at hlt
    exact hlt.trans_le (Nat.pow_le_pow_right (by decide) (by omega))
  have heacc : (shiftIn t.eacc b).toNat = blockValue (lastChunk 8 B ++ [b]) := by
    rw [shiftIn_toNat _ _ hroom, h.eacc, blockValue_append_singleton]
  have hnb := h.nb
  by_cases hfull : B.length % 8 + 1 = 8
  · refine ⟨_, encodeByte_close A b t ((succ_eq_eight_iff _).2 (by omega)), ?_, ?_, ?_⟩
    · simp only [clearEncodeSide_nb, BitVec.toNat_ofNat, List.length_append, List.length_singleton]
      omega
    · simp [lastChunk_append_full b hfull]
    · rw [emitGroup_eq A (le_refl 11)]
      simp [h.rsp, fullBlockSymbols, fullChunks_append_full b hfull, encodeBlock, heacc]
  · have hopen : ¬ t.nb + 1#4 = 8#4 := by rw [succ_eq_eight_iff]; omega
    refine ⟨_, encodeByte_open A b t hopen, ?_, ?_, ?_⟩
    · simp only [List.length_append, List.length_singleton]
      rw [counter_succ_toNat (by omega)]
      omega
    · rw [lastChunk_append_open b (by decide) hfull]
      exact heacc
    · rw [fullBlockSymbols, fullChunks_append_open b (by decide) hfull]
      exact h.rsp

/-- The `ENCB`s of `B` take the encode side from a block boundary through `B`. -/
theorem runWords_encodeBytes (A : Alphabet) (B : List Byte) {s : State} (hs : Inv A s)
    (h0 : EncodeIdle s) :
    ∃ t, runWords (execWith A) (words (B.map .encb)) s = .next t ∧ EncodedSoFar A B s t := by
  induction B using List.reverseRecOn with
  | nil => exact ⟨s, rfl, .nil A hs h0⟩
  | append_singleton B b ih =>
    obtain ⟨t, hrun, ht⟩ := ih
    obtain ⟨u, hstep, hu⟩ := ht.encodeByte b
    rw [List.map_append]
    exact ⟨u, runWords_words_append_singleton hrun hstep, hu⟩

/-- Settles O45: by induction on the stream, byte after byte. -/
theorem encodeSideHoldsTheBlockValue : Obligations.EncodeSideHoldsTheBlockValue := by
  intro A B s hs h0
  obtain ⟨t, hrun, ht⟩ := runWords_encodeBytes A B hs h0
  have hnew := newResponses_append s t _ ht.rsp
  exact ⟨t, hrun, ht.nb, ht.eacc, by simp [hnew], by rw [hnew, encodeBuffer_take]⟩

/-! ## The decode side in a stream -/

/-- After the symbols `S`, from a group boundary on: `NS` counts the open group; the stream drains
exactly if a full group was out of range, and is else clean with the open group's value in `DACC`
(R23, R24, R202). -/
structure DecodedSoFar (A : Alphabet) (S : List Byte) (t : State) : Prop where
  ns : t.ns.toNat = S.length % 11
  err : t.err = 0#3 ∨ t.err = 3#3
  drains : t.err = 3#3 ↔ ∃ g ∈ fullChunks 11 S, 2 ^ 64 ≤ charsValue A g
  dacc : t.err = 0#3 → t.dacc.toNat = charsValue A (lastChunk 11 S)

theorem DecodedSoFar.nil {A : Alphabet} {s : State} (hs : Inv A s) (h0 : DecodeIdle s) :
    DecodedSoFar A [] s := by
  obtain ⟨-, -, -, -, hdacc, -⟩ := hs
  obtain ⟨hns, herr⟩ := h0
  have hzero : s.dacc.toNat = 0 := by simpa [hns] using hdacc herr
  exact ⟨by simp [hns], .inl herr, by simp [herr], fun _ => by simp [hzero, charsValue]⟩

/-- In drain `DECS` of a symbol only counts, and the group that was out of range stays one. -/
theorem DecodedSoFar.drainDigit {A : Alphabet} {S : List Byte} {t : State}
    (h : DecodedSoFar A S t) (h3 : t.err = 3#3) (c : Byte) :
    DecodedSoFar A (S ++ [c]) (drainDigit t) := by
  obtain ⟨g, hg, hv⟩ := h.drains.1 h3
  have hmem : g ∈ fullChunks 11 (S ++ [c]) := by
    by_cases hfull : S.length % 11 + 1 = 11
    · rw [fullChunks_append_full c hfull]
      exact List.mem_append_left _ hg
    · rwa [fullChunks_append_open c (by decide) hfull]
  refine ⟨?_, .inr h3, iff_of_true h3 ⟨g, hmem, hv⟩, fun h0 => ?_⟩
  · simp only [drainDigit_ns, BitVec.toNat_ofNat, h.ns, List.length_append, List.length_singleton]
    omega
  · simp [h3] at h0

/-- In the clean condition `DECS` of a symbol takes its digit into the open group (R141). -/
theorem DecodedSoFar.acceptDigit {A : Alphabet} {S : List Byte} {t : State}
    (h : DecodedSoFar A S t) (h0 : t.err = 0#3) (c : Byte) :
    DecodedSoFar A (S ++ [c]) (acceptDigit (inv A c).value t) := by
  have hroom : t.dacc.toNat < 60 ^ 10 := by
    have hlt := charsValue_lt A (lastChunk 11 S)
    rw [← h.dacc h0, lastChunk_length] at hlt
    exact hlt.trans_le (Nat.pow_le_pow_right (by decide) (by omega))
  have hvalue : (horner t.dacc (inv A c).value).toNat = charsValue A (lastChunk 11 S ++ [c]) := by
    rw [horner_toNat_exact _ _ hroom, h.dacc h0, charsValue_append_singleton]
  have hsound : ∀ g ∈ fullChunks 11 S, ¬ 2 ^ 64 ≤ charsValue A g := fun g hg hv => by
    simp [h.drains.2 ⟨g, hg, hv⟩] at h0
  have hns := h.ns
  have hlen : (S ++ [c]).length = S.length + 1 := by simp
  obtain ⟨hopen, heq⟩ | ⟨hfull, hv, heq⟩ | ⟨hfull, hv, heq⟩ :=
    acceptDigit_cases (inv A c).value t h0
  · have hopen' : S.length % 11 + 1 ≠ 11 := by omega
    rw [heq]
    refine ⟨?_, .inl h0, ?_, fun _ => ?_⟩
    · change (t.ns + 1#4).toNat = _
      rw [counter_succ_toNat (by omega), hlen]
      omega
    · rw [fullChunks_append_open c (by decide) hopen']
      exact h.drains
    · rw [lastChunk_append_open c (by decide) hopen']
      exact hvalue
  · have hfull' : S.length % 11 + 1 = 11 := by omega
    rw [heq]
    refine ⟨?_, .inl h0, ?_, fun _ => ?_⟩
    · change 0 = _
      rw [hlen]
      omega
    · rw [fullChunks_append_full c hfull']
      refine iff_of_false (by simp [h0]) ?_
      rintro ⟨g, hg, hge⟩
      obtain hg | hg := List.mem_append.1 hg
      · exact hsound g hg hge
      · rw [List.mem_singleton.1 hg, ← hvalue] at hge
        omega
    · simp [lastChunk_append_full c hfull', charsValue]
  · have hfull' : S.length % 11 + 1 = 11 := by omega
    rw [heq]
    refine ⟨?_, .inr rfl, iff_of_true rfl ⟨lastChunk 11 S ++ [c], ?_, hvalue ▸ hv⟩, fun h => ?_⟩
    · change 0 = _
      rw [hlen]
      omega
    · rw [fullChunks_append_full c hfull']
      simp
    · simp at h

/-- `DECS` of a symbol takes the stream one symbol further (R141). -/
theorem DecodedSoFar.decodeChar {A : Alphabet} {S : List Byte} {t : State}
    (h : DecodedSoFar A S t) {c : Byte} (hc : (inv A c).valid = true) :
    ∃ u, decodeChar A c t = .next u ∧ DecodedSoFar A (S ++ [c]) u := by
  obtain h0 | h3 := h.err
  · exact ⟨_, decodeChar_clean A c t (by simp [h0]) (by simp [h0]) hc, h.acceptDigit h0 c⟩
  · exact ⟨_, decodeChar_drain A c t h3 hc, h.drainDigit h3 c⟩

/-- The `DECS`s of symbols `S` take the decode side from a group boundary through `S`. -/
theorem runWords_decodeSymbols {A : Alphabet} {S : List Byte} {s : State} (hs : Inv A s)
    (h0 : DecodeIdle s) (hS : ∀ c ∈ S, (inv A c).valid = true) :
    ∃ t, runWords (execWith A) (words (S.map .decs)) s = .next t ∧ DecodedSoFar A S t := by
  induction S using List.reverseRecOn with
  | nil => exact ⟨s, rfl, .nil hs h0⟩
  | append_singleton S c ih =>
    obtain ⟨t, hrun, ht⟩ := ih fun x hx => hS x (List.mem_append_left _ hx)
    obtain ⟨u, hstep, hu⟩ := ht.decodeChar (hS c (by simp))
    rw [List.map_append]
    exact ⟨u, runWords_words_append_singleton hrun hstep, hu⟩

/-- Settles O46: by induction on the stream, symbol after symbol. -/
theorem decodeSideHoldsTheGroupValue : Obligations.DecodeSideHoldsTheGroupValue := by
  intro A S s hs h0 hS
  obtain ⟨t, hrun, ht⟩ := runWords_decodeSymbols hs h0 hS
  exact ⟨t, hrun, ht.ns, ht.err, ht.drains, ht.dacc⟩

/-- A dead stream ignores whatever characters follow (R141, R201). -/
theorem runWords_decs_dead (A : Alphabet) (S : List Byte) {t : State} (h : t.err = 1#3) :
    runWords (execWith A) (words (S.map .decs)) t = .next t := by
  induction S with
  | nil => rfl
  | cons c S ih =>
    have hc : runWord (execWith A) (encode (.decs c)) t = .next t :=
      (runWord_encode _ _ _).trans (decodeChar_dead A c t h)
    exact (runWords_cons_next _ hc).trans ih

/-- Settles O47: the symbols before the character leave the stream clean or draining, the character
kills it, and nothing after it counts. -/
theorem firstInvalidCharacterIsRecorded : Obligations.FirstInvalidCharacterIsRecorded := by
  intro A pre post c s hs h0 hpre hc
  obtain ⟨t, hrun, ht⟩ := runWords_decodeSymbols hs h0 hpre
  have hlive : t.err ≠ 1#3 := by obtain h | h := ht.err <;> simp [h]
  have hdead := decodeChar_invalid A c t hlive hc
  rw [raise_invalidCharacter c t ht.err] at hdead
  refine ⟨{ t with err := 1#3, echr := c }, ?_, rfl, rfl, ht.ns⟩
  have hword : runWord (execWith A) (encode (.decs c)) t = .next _ :=
    (runWord_encode _ _ _).trans hdead
  rw [words, List.map_append, List.map_append, ← words, runWords_append hrun]
  exact (runWords_cons_next _ hword).trans (runWords_decs_dead A post rfl)

end Sys2Proof.Machine
end

section
/-! ## The constant tables -/

namespace Sys2Proof.Machine

/-- No two digits share a symbol: the codes of `ALPHABET` are pairwise distinct (R52). -/
theorem alpha_injective (A : Alphabet) : Function.Injective (alpha A) :=
  fun _ _ h => Fin.ext ((A.nodup.getElem_inj_iff).1 h)

/-- The search of `INV` finds the digit of a symbol, for no earlier entry has its code (R53). -/
@[simp] theorem inv_alpha (A : Alphabet) (d : Digit) : inv A (alpha A d) = ⟨true, d⟩ := by
  have hlen : d.val < A.codes.length := d.isLt.trans_eq A.length_eq.symm
  have hfound : A.codes.findIdx? (· == alpha A d) = some d.val := by
    refine List.findIdx?_eq_some_iff_getElem.2 ⟨hlen, by simp [alpha], fun j hj => ?_⟩
    have hne : alpha A ⟨j, hj.trans d.isLt⟩ ≠ alpha A d :=
      (alpha_injective A).ne (Fin.ne_of_lt hj)
    simpa [alpha] using hne
  rw [inv, hfound]
  exact congrArg (InvEntry.mk true) (remainder60_of_digit d)

/-- Whatever digit's symbol a code is, `INV` gives that digit (R53). -/
theorem inv_of_alpha_eq {A : Alphabet} {d : Digit} {c : Byte} (h : alpha A d = c) :
    inv A c = ⟨true, d⟩ :=
  h ▸ inv_alpha A d

/-- The entry of a code that is no symbol (R53). -/
theorem inv_of_forall_alpha_ne {A : Alphabet} {c : Byte} (h : ∀ d : Digit, alpha A d ≠ c) :
    inv A c = ⟨false, 0⟩ := by
  have habsent : A.codes.findIdx? (· == c) = none := by
    refine List.findIdx?_eq_none_iff.2 fun x hx => beq_false_of_ne ?_
    obtain ⟨j, hj, rfl⟩ := List.getElem_of_mem hx
    exact h ⟨j, hj.trans_eq A.length_eq⟩
  rw [inv, habsent]

/-- Every symbol of the default `ALPHABET` lies in one of the five ranges of R53. -/
theorem alpha_alphabet_mem_ranges (d : Digit) :
    (0x30 ≤ (alpha alphabet d).toNat ∧ (alpha alphabet d).toNat ≤ 0x39) ∨
    (0x41 ≤ (alpha alphabet d).toNat ∧ (alpha alphabet d).toNat ≤ 0x48) ∨
    (0x4A ≤ (alpha alphabet d).toNat ∧ (alpha alphabet d).toNat ≤ 0x4E) ∨
    (0x50 ≤ (alpha alphabet d).toNat ∧ (alpha alphabet d).toNat ≤ 0x5A) ∨
    (0x61 ≤ (alpha alphabet d).toNat ∧ (alpha alphabet d).toNat ≤ 0x7A) := by
  revert d; decide

/-- The codes of each range of R53 are the symbols of consecutive digits, in order. -/
theorem alpha_alphabet_of_range : ∀ r ∈ [(0x30, 0x39, 0), (0x41, 0x48, 10), (0x4A, 0x4E, 18),
    (0x50, 0x5A, 23), (0x61, 0x7A, 34)], ∀ c : Byte, r.1 ≤ c.toNat ∧ c.toNat ≤ r.2.1 →
      alpha alphabet (remainder60 (c.toNat - r.1 + r.2.2)) = c := by
  decide

/-- Settles O17: over any `ALPHABET` from its entries being distinct; under the default the five
ranges are runs of symbols, and no symbol lies outside them. -/
theorem symbolTableIsInverted : Obligations.SymbolTableIsInverted := by
  refine ⟨inv_alpha, fun A c => inv_of_forall_alpha_ne, fun c => ?_⟩
  split_ifs with hdigit hAH hJN hPZ haz
  · exact inv_of_alpha_eq (alpha_alphabet_of_range (0x30, 0x39, 0) (by decide) c hdigit)
  · exact inv_of_alpha_eq (alpha_alphabet_of_range (0x41, 0x48, 10) (by decide) c hAH)
  · exact inv_of_alpha_eq (alpha_alphabet_of_range (0x4A, 0x4E, 18) (by decide) c hJN)
  · exact inv_of_alpha_eq (alpha_alphabet_of_range (0x50, 0x5A, 23) (by decide) c hPZ)
  · exact inv_of_alpha_eq (alpha_alphabet_of_range (0x61, 0x7A, 34) (by decide) c haz)
  · refine inv_of_forall_alpha_ne fun d hd => ?_
    have hranges := alpha_alphabet_mem_ranges d
    rw [hd] at hranges
    tauto

/-- `60^(k-1) < 2^(8n) < 60^k` in every row of `KTAB` but the first (R51). -/
theorem ktab_bounds {n : Nat} {k : BitVec 4} (h1 : 1 ≤ n) (h8 : n ≤ 8) (hk : ktab n = some k) :
    60 ^ (k.toNat - 1) < 2 ^ (8 * n) ∧ 2 ^ (8 * n) < 60 ^ k.toNat := by
  have table : ∀ m ≤ 8, 1 ≤ m → ∀ K ∈ ktab m,
      60 ^ (K.toNat - 1) < 2 ^ (8 * m) ∧ 2 ^ (8 * m) < 60 ^ K.toNat := by decide
  exact table n h8 h1 k hk

/-- Settles O15: the bound below each entry makes it minimal, for `60^j` grows with `j`. -/
theorem partialLengthsAreMinimal : Obligations.PartialLengthsAreMinimal := by
  refine ⟨by decide, fun n k h1 h8 hk => ?_⟩
  obtain ⟨hbelow, habove⟩ := ktab_bounds h1 h8 hk
  refine ⟨hbelow, habove, fun j hj => ?_⟩
  have hlt : k.toNat - 1 < j := (Nat.pow_lt_pow_iff_right (by decide)).1 (hbelow.trans_le hj)
  omega

/-- A partial block's length, read back through `KINV`, is valid with its byte count (R54). -/
theorem kinv_ktab : ∀ n ≤ 7, ∃ k : BitVec 4,
    ktab n = some k ∧ kinv k.toNat = some ⟨true, BitVec.ofNat 4 n⟩ := by
  decide

/-- A valid entry of `KINV` names the row of `KTAB` that holds its count (R54). -/
theorem ktab_of_kinv_valid {r : Nat} {e : KinvEntry} (he : kinv r = some e)
    (hv : e.valid = true) : ktab e.n.toNat = some (BitVec.ofNat 4 r) := by
  have hr : r ≤ 10 := by
    by_contra hr
    simp [(kinv_eq_none_iff r).2 (by omega)] at he
  have table : ∀ m ≤ 10, ∀ e ∈ kinv m, e.valid = true →
      ktab e.n.toNat = some (BitVec.ofNat 4 m) := by decide
  exact table r hr e he hv

/-- The trailing counts that no partial block has (R54). -/
theorem kinv_invalid_iff : ∀ r ≤ 10, kinv r = some ⟨false, 0#4⟩ ↔ r = 1 ∨ r = 4 ∨ r = 8 := by
  decide

/-- Settles O16: row by row of the two tables. -/
theorem trailingCountsInvertTheTable : Obligations.TrailingCountsInvertTheTable :=
  ⟨kinv_ktab, fun _ _ => ktab_of_kinv_valid, kinv_invalid_iff⟩

end Sys2Proof.Machine
end

section
/-! ## The two stops -/

namespace Sys2Proof.Machine

/-- Settles O31: each finish command stops where its table has no entry, and elsewhere every
instruction of the machine answers over any `ALPHABET`, so over the default one. -/
theorem stopsOnlyOutsideTheTables : Obligations.StopsOnlyOutsideTheTables := by
  refine ⟨encodeFinish_stop alphabet, decodeFinish_stop, fun i s hencf hdecf => ?_⟩
  rw [exec_eq_execWith_alphabet]
  exact execWith_answers alphabet i s hencf hdecf

end Sys2Proof.Machine
end

section
namespace Sys2Proof

/-! ## Decoder, encoder and table -/

/-- Settles O9: the encoder is a right inverse of the decoder, and no other word decodes. -/
theorem decodeAndEncodeAgree : Obligations.DecodeAndEncodeAgree :=
  ⟨decode_encode, fun _ _ => encode_eq_of_decode⟩

/-- The word of every instruction matches its own row, a row of R84. -/
theorem tableRow (i : Instr) : Laws.TableRow.Statement i := by
  cases i with
  | nop => exact Laws.TableRow.nop
  | clr => exact Laws.TableRow.clr
  | encb b => exact Laws.TableRow.encb b
  | encf => exact Laws.TableRow.encf
  | decs c => exact Laws.TableRow.decs c
  | decf => exact Laws.TableRow.decf
  | rdst => exact Laws.TableRow.rdst

/-- The operand field of an instruction's word is its operand (R80, R81). -/
@[simp] theorem argField_encode (i : Instr) : argField (encode i) = operandOf i := by
  cases i with
  | encb b => revert b; decide
  | decs c => revert c; decide
  | nop => rfl
  | clr => rfl
  | encf => rfl
  | decf => rfl
  | rdst => rfl

/-- A command word is its upper byte and its operand (R80). -/
theorem and_upper_or_argField (w : Word16) :
    w &&& 0xFF00#16 ||| (argField w).setWidth 16 = w := by
  have hmask : ∀ i < 16, (0xFF00#16).getLsbD i = decide (8 ≤ i) := by decide
  ext i hi
  have := hmask i hi
  by_cases h8 : 8 ≤ i <;> simp_all [argField]

/-- A word that a row of R84 matches is the word of an instruction of that row. -/
theorem exists_encode_of_matches {w : Word16} {row : OpcodeRow} (hrow : row ∈ opcodeTable)
    (hw : w &&& row.mask = row.matchWord) : ∃ i, encode i = w ∧ rowOf i = row := by
  have hfull : w &&& 0xFFFF#16 = w := BitVec.and_allOnes
  have hsplit := and_upper_or_argField w
  simp only [opcodeTable, List.mem_cons, List.not_mem_nil, or_false] at hrow
  obtain rfl | rfl | rfl | rfl | rfl | rfl | rfl := hrow
  · exact ⟨.nop, hw.symm.trans hfull, rfl⟩
  · exact ⟨.clr, hw.symm.trans hfull, rfl⟩
  · exact ⟨.encb (argField w), by rwa [hw] at hsplit, rfl⟩
  · exact ⟨.encf, hw.symm.trans hfull, rfl⟩
  · exact ⟨.decs (argField w), by rwa [hw] at hsplit, rfl⟩
  · exact ⟨.decf, hw.symm.trans hfull, rfl⟩
  · exact ⟨.rdst, hw.symm.trans hfull, rfl⟩

/-- The row of the instruction that a word decodes to matches the word (R84, R94). -/
theorem matches_of_decode {w : Word16} {i : Instr} (h : decode w = .ok i) :
    rowOf i ∈ opcodeTable ∧ w &&& (rowOf i).mask = (rowOf i).matchWord := by
  obtain ⟨hrow, hmatch⟩ := tableRow i
  rw [encode_eq_of_decode h] at hmatch
  exact ⟨hrow, by simpa [matchesRow] using hmatch⟩

/-- A row of R84 matches exactly the words that decode to an instruction of that row (R94). -/
theorem matches_iff_decode {w : Word16} {row : OpcodeRow} (hrow : row ∈ opcodeTable) :
    w &&& row.mask = row.matchWord ↔ ∃ i, decode w = .ok i ∧ rowOf i = row := by
  constructor
  · intro hw
    obtain ⟨i, rfl, hi⟩ := exists_encode_of_matches hrow hw
    exact ⟨i, decode_encode i, hi⟩
  · rintro ⟨i, hi, rfl⟩
    exact (matches_of_decode hi).2

/-- The illegal words are those that no row of R84 matches (R85). -/
theorem decode_error_iff_no_match (w : Word16) :
    (∃ e, decode w = .error e) ↔ ∀ row ∈ opcodeTable, w &&& row.mask ≠ row.matchWord := by
  constructor
  · rintro ⟨e, he⟩ row hrow hw
    obtain ⟨i, hi, -⟩ := (matches_iff_decode hrow).1 hw
    simp [he] at hi
  · intro hno
    cases hd : decode w with
    | ok i =>
      obtain ⟨hrow, hmatch⟩ := matches_of_decode hd
      exact absurd hmatch (hno _ hrow)
    | error e => exact ⟨e, rfl⟩

/-- The operand of a decoded instruction is `arg`, and `arg` is 0 where there is none (R80, R81). -/
theorem operand_of_decode {w : Word16} {i : Instr} (h : decode w = .ok i) :
    i = .encb (argField w) ∨ i = .decs (argField w) ∨ argField w = 0#8 := by
  rw [← encode_eq_of_decode h, argField_encode]
  cases i with
  | encb b => exact .inl rfl
  | decs c => exact .inr (.inl rfl)
  | nop | clr | encf | decf | rdst => exact .inr (.inr rfl)

/-- No two rows of R84 match one word: it decodes to one instruction only. -/
theorem row_unique {w : Word16} {r1 r2 : OpcodeRow} (h1 : r1 ∈ opcodeTable) (h2 : r2 ∈ opcodeTable)
    (hw1 : w &&& r1.mask = r1.matchWord) (hw2 : w &&& r2.mask = r2.matchWord) : r1 = r2 := by
  obtain ⟨i, hi, rfl⟩ := (matches_iff_decode h1).1 hw1
  obtain ⟨j, hj, rfl⟩ := (matches_iff_decode h2).1 hw2
  rw [Except.ok.inj (hi.symm.trans hj)]

/-- Settles O10: a row matches the words of its instructions and no other, so the decoder, which is the
inverse of the encoder, selects that row. -/
theorem decodeSelectsTheTableRow : Obligations.DecodeSelectsTheTableRow :=
  ⟨fun _ _ => matches_iff_decode, decode_error_iff_no_match, fun _ _ => operand_of_decode,
    fun _ _ _ => row_unique⟩

/-- The tests of R94 that make a word illegal. -/
theorem decode_error_iff_fields (w : Word16) :
    (∃ e, decode w = .error e) ↔ zeroField w ≠ 0#4 ∨
      (opField w ≠ 2#4 ∧ opField w ≠ 4#4 ∧ (argField w ≠ 0#8 ∨ 7 ≤ (opField w).toNat)) := by
  have hop : ∀ op : BitVec 4, 7 ≤ op.toNat ∨ op ∈ [0#4, 1#4, 2#4, 3#4, 4#4, 5#4, 6#4] := by decide
  unfold decode
  split_ifs with hz hencb hdecs harg hnop hclr hencf hdecf hrdst
  · simp [hz]
  · simp [hz, hencb]
  · simp [hz, hdecs]
  · simp [hz, hencb, hdecs, harg]
  · simp [hz, harg, hnop]
  · simp [hz, harg, hclr]
  · simp [hz, harg, hencf]
  · simp [hz, harg, hdecf]
  · simp [hz, harg, hrdst]
  · have hhigh : 7 ≤ (opField w).toNat := (hop (opField w)).resolve_right (by
      simp [hnop, hclr, hencb, hencf, hdecs, hdecf, hrdst])
    simp [hencb, hdecs, hhigh]

/-- Settles O11: the classes are the tests of R94, sorted by `op`. -/
theorem illegalWordsAreTheThreeClasses : Obligations.IllegalWordsAreTheThreeClasses := by
  intro w
  have hop : ∀ op : BitVec 4, (7 ≤ op.toNat ∧ op ≠ 2#4 ∧ op ≠ 4#4) ∨
      (op.toNat ≤ 6 ∧ (op ∈ [0#4, 1#4, 3#4, 5#4, 6#4] ↔ op ≠ 2#4 ∧ op ≠ 4#4)) := by decide
  rw [decode_error_iff_fields]
  obtain ⟨hhigh, h2, h4⟩ | ⟨hlow, hmem⟩ := hop (opField w)
  · simp [hhigh, h2, h4]
  · rw [hmem]
    have : ¬ 7 ≤ (opField w).toNat := by omega
    simp only [hlow, this]
    tauto

/-- Settles O12: each word is that of its instruction, written out. -/
theorem sampleWordsDecode : Obligations.SampleWordsDecode :=
  ⟨decode_encode .nop, decode_encode .clr, decode_encode (.encb 0x48#8), decode_encode .encf,
    decode_encode (.decs 0x47#8), decode_encode .decf, decode_encode .rdst⟩

namespace Machine

theorem words_encodeStream (xs : List Byte) :
    words (encodeStream xs) = xs.map (fun x => 0x2000#16 ||| x.setWidth 16) ++ [0x3000#16] := by
  rw [words, encodeStream, List.map_append, List.map_map]
  rfl

theorem words_decodeStream (xs : List Byte) :
    words (decodeStream xs) = xs.map (fun x => 0x4000#16 ||| x.setWidth 16) ++ [0x5000#16] := by
  rw [words, decodeStream, List.map_append, List.map_map]
  rfl

/-- Settles O14: the words of the two streams, and their number. -/
theorem pseudoInstructionsExpand : Obligations.PseudoInstructionsExpand := fun xs =>
  ⟨words_encodeStream xs, words_decodeStream xs, by simp [words_encodeStream],
    by simp [words_decodeStream]⟩

end Machine
end Sys2Proof
end

section
namespace Sys2Proof.Machine

/-! ## Response words -/

/-- The word with the fields `kind`, `code`, `data` (R86). -/
def packFields (kind code : BitVec 4) (data : Byte) : Word16 := kind ++ (code ++ data)

/-- Every word is its three fields. -/
theorem packFields_fields (w : Word16) :
    packFields (kindField w) (codeField w) (dataField w) = w := fields_append w

section
variable (k v : BitVec 4) (d : Byte)

@[simp] theorem kindField_packFields : kindField (packFields k v d) = k :=
  BitVec.extractLsb'_append_eq_left

theorem statusField_packFields : (packFields k v d).extractLsb' 0 12 = v ++ d :=
  BitVec.extractLsb'_append_eq_right

@[simp] theorem codeField_packFields : codeField (packFields k v d) = v :=
  (BitVec.extractLsb'_append_eq_of_add_le (by decide)).trans BitVec.extractLsb'_append_eq_left

@[simp] theorem dataField_packFields : dataField (packFields k v d) = d :=
  (BitVec.extractLsb'_append_eq_of_add_le (by decide)).trans BitVec.extractLsb'_append_eq_right

/-- The fields shifted into their places. -/
theorem packFields_eq_or :
    packFields k v d = k.setWidth 16 <<< 12 ||| (v.setWidth 16 <<< 8 ||| d.setWidth 16) := by
  rw [← BitVec.setWidth_append_eq_shiftLeft_setWidth_or,
    ← BitVec.setWidth_append_eq_shiftLeft_setWidth_or]
  exact (BitVec.setWidth_eq _).symm

end

/-! The fields of each kind of response (R87). -/

theorem responseWord_sym (c : Byte) : responseWord (.sym c) = packFields 0x1#4 0#4 c := by
  simp [responseWord, packFields_eq_or]
theorem responseWord_byte (b : Byte) : responseWord (.byte b) = packFields 0x2#4 0#4 b := by
  simp [responseWord, packFields_eq_or]
theorem responseWord_fin (v : BitVec 4) (d : Byte) :
    responseWord (.fin v d) = packFields 0x3#4 v d := by
  simp [responseWord, packFields_eq_or, BitVec.or_assoc]
theorem responseWord_stat (v : BitVec 4) (d : Byte) :
    responseWord (.stat (v ++ d)) = packFields 0x4#4 v d := by
  rw [responseWord, BitVec.setWidth_append_eq_shiftLeft_setWidth_or, packFields_eq_or]
  rfl

/-- A status is a `code` and a `data` field (R86, R89). -/
theorem exists_status_fields (st : BitVec 12) : ∃ (v : BitVec 4) (d : Byte), st = v ++ d :=
  ⟨st.extractLsb' 8 4, st.extractLsb' 0 8, by
    rw [BitVec.extractLsb'_append_extractLsb'_eq_extractLsb' (by rfl)]
    exact BitVec.extractLsb'_eq_self.symm⟩

/-- The host reads a response word as the response it was made from (R87). -/
theorem readResponse_responseWord (r : Response) : readResponse (responseWord r) = some r := by
  cases r with
  | sym c => simp [responseWord_sym, readResponse]
  | byte b => simp [responseWord_byte, readResponse]
  | fin v d => simp [responseWord_fin, readResponse]
  | stat st =>
    obtain ⟨v, d, rfl⟩ := exists_status_fields st
    simp [responseWord_stat, readResponse, statusField_packFields]
  | illc => rfl

/-- A word reads as no response but the one it is the word of (R86, R87). -/
theorem responseWord_of_readResponse {w : Word16} {r : Response} (h : readResponse w = some r) :
    responseWord r = w := by
  have hw := packFields_fields w
  unfold readResponse at h
  split_ifs at h with hsym hbyte hfin hstat hillc
  all_goals obtain rfl := Option.some.inj h
  · obtain ⟨hk, hc⟩ := hsym
    rwa [responseWord_sym, ← hk, ← hc]
  · obtain ⟨hk, hc⟩ := hbyte
    rwa [responseWord_byte, ← hk, ← hc]
  · rwa [responseWord_fin, ← hfin]
  · have hlow := statusField_packFields (kindField w) (codeField w) (dataField w)
    rw [hw] at hlow
    rwa [hlow, responseWord_stat, ← hstat]
  · exact hillc.symm

/-- Settles O13: both directions go through the three fields of the word.-/
theorem responseWordsReadBack : Obligations.ResponseWordsReadBack :=
  ⟨readResponse_responseWord, fun _ _ => responseWord_of_readResponse⟩

end Sys2Proof.Machine
end

section
namespace Sys2Proof.Machine

/-! ## The responses of each command -/

/-- All the responses are symbols of `A` (R87). -/
def AllSymbols (A : Alphabet) (rs : List Response) : Prop := ∀ r ∈ rs, ∃ d, r = .sym (alpha A d)

/-- All the responses are bytes (R87). -/
def AllBytes (rs : List Response) : Prop := ∀ r ∈ rs, ∃ b, r = .byte b

/-- The `FIN` words of R88: success, an invalid character outside `A`, an invalid length, a value out
of range. -/
def LegalFin (A : Alphabet) (v : BitVec 4) (d : Byte) : Prop :=
  (v = 0#4 ∧ d = 0#8) ∨ (v = 1#4 ∧ (inv A d).valid = false) ∨ (v = 2#4 ∧ d = 0#8) ∨
    (v = 3#4 ∧ d = 0#8)

theorem allSymbols_map (A : Alphabet) (ds : List Digit) :
    AllSymbols A (ds.map fun d => .sym (alpha A d)) := by
  rintro r hr
  obtain ⟨d, -, rfl⟩ := List.mem_map.1 hr
  exact ⟨d, rfl⟩

theorem allBytes_map (bs : List Byte) : AllBytes (bs.map .byte) := by
  rintro r hr
  obtain ⟨b, -, rfl⟩ := List.mem_map.1 hr
  exact ⟨b, rfl⟩

theorem partialLen_of_ktab {n : Nat} {K : BitVec 4} (h : ktab n = some K) :
    partialLen n = K.toNat := by
  simp [partialLen, h]

/-- A trailing block has at most 10 symbols (R51). -/
theorem partialLen_le_ten : ∀ n ≤ 7, partialLen n ≤ 10 := by decide

/-- A trailing group has at most 7 bytes (R54). -/
theorem kinv_n_le_seven {r : Nat} {e : KinvEntry} (h : kinv r = some e) : e.n.toNat ≤ 7 := by
  have hr : r < 11 := by
    by_contra hr
    simp [(kinv_eq_none_iff r).2 (by omega)] at h
  have table : ∀ m < 11, ∀ e ∈ kinv m, e.n.toNat ≤ 7 := by decide
  exact table r hr e h

/-- `ENCB` answers nothing, or the 11 symbols of a full block (R130). -/
theorem encodeByte_responses {A : Alphabet} {b : Byte} {s t : State}
    (h : encodeByte A b s = .next t) :
    ∃ rs : List Response, t.rsp = s.rsp ++ rs.map responseWord ∧
      (rs = [] ∨ (rs.length = 11 ∧ AllSymbols A rs)) := by
  by_cases hfull : s.nb + 1#4 = 8#4
  · rw [encodeByte_close A b s hfull, emitGroup_eq A (le_refl 11)] at h
    obtain rfl := Host.Outcome.next.inj h
    exact ⟨_, rfl, .inr ⟨by simp, allSymbols_map A _⟩⟩
  · rw [encodeByte_open A b s hfull] at h
    obtain rfl := Host.Outcome.next.inj h
    exact ⟨[], by simp, .inl rfl⟩

/-- `ENCF` answers the symbols of the trailing block, then `FIN(0, 0)` (R131). -/
theorem encodeFinish_responses {A : Alphabet} {s t : State} (h : encodeFinish A s = .next t) :
    ∃ ss : List Response, t.rsp = s.rsp ++ (ss ++ [Response.fin 0#4 0#8]).map responseWord ∧
      ss.length = partialLen s.nb.toNat ∧ AllSymbols A ss := by
  by_cases h0 : s.nb = 0#4
  · rw [encodeFinish_empty A s h0] at h
    obtain rfl := Host.Outcome.next.inj h
    exact ⟨[], rfl, by rw [h0]; rfl, by simp [AllSymbols]⟩
  · cases hK : ktab s.nb.toNat with
    | none =>
      rw [encodeFinish_stop A s ((ktab_eq_none_iff _).1 hK)] at h
      cases h
    | some K =>
      rw [encodeFinish_partial A s K h0 hK, emitGroup_eq A (ktab_le_eleven hK)] at h
      obtain rfl := Host.Outcome.next.inj h
      exact ⟨(digitsOf s.eacc.toNat K.toNat).map fun d => .sym (alpha A d), by simp,
        by simp [partialLen_of_ktab hK], allSymbols_map A _⟩

/-- `DECS` answers nothing, or the 8 bytes of a full group (R141). -/
theorem decodeChar_responses {A : Alphabet} {c : Byte} {s t : State} (hs : DecodeLegal A s)
    (h : decodeChar A c s = .next t) :
    ∃ rs : List Response, t.rsp = s.rsp ++ rs.map responseWord ∧
      (rs = [] ∨ (rs.length = 8 ∧ AllBytes rs)) := by
  by_cases h1 : s.err = 1#3
  · rw [decodeChar_dead A c s h1] at h
    obtain rfl := Host.Outcome.next.inj h
    exact ⟨[], by simp, .inl rfl⟩
  cases hc : (inv A c).valid with
  | false =>
    rw [decodeChar_invalid A c s h1 hc] at h
    obtain rfl := Host.Outcome.next.inj h
    exact ⟨[], by simp, .inl rfl⟩
  | true =>
    by_cases h3 : s.err = 3#3
    · rw [decodeChar_drain A c s h3 hc] at h
      obtain rfl := Host.Outcome.next.inj h
      exact ⟨[], by simp, .inl rfl⟩
    · have h0 : s.err = 0#3 := hs.2.1.resolve_right (by simp [h1, h3])
      rw [decodeChar_clean A c s h1 h3 hc] at h
      obtain rfl := Host.Outcome.next.inj h
      obtain ⟨-, heq⟩ | ⟨-, -, heq⟩ | ⟨-, -, heq⟩ := acceptDigit_cases (inv A c).value s h0
      · exact ⟨[], by simp [heq], .inl rfl⟩
      · exact ⟨_, by rw [heq]; rfl, .inr ⟨by simp, allBytes_map _⟩⟩
      · exact ⟨[], by simp [heq], .inl rfl⟩

/-- `DECF` answers the bytes of the trailing group, then a `FIN` of R88 (R142). -/
theorem decodeFinish_responses {A : Alphabet} {s t : State} (hs : DecodeLegal A s)
    (h : decodeFinish s = .next t) :
    ∃ (bs : List Response) (v : BitVec 4) (d : Byte),
      t.rsp = s.rsp ++ (bs ++ [Response.fin v d]).map responseWord ∧ bs.length ≤ 7 ∧ AllBytes bs ∧
      LegalFin A v d := by
  obtain ⟨-, -, -, -, -, hchar⟩ := hs
  have hnone : AllBytes [] := by simp [AllBytes]
  by_cases h1 : s.err = 1#3
  · rw [decodeFinish_dead s h1] at h
    obtain rfl := Host.Outcome.next.inj h
    exact ⟨[], _, _, rfl, by simp, hnone, .inr (.inl ⟨rfl, hchar h1⟩)⟩
  cases he : kinv s.ns.toNat with
  | none =>
    rw [decodeFinish_stop s h1 ((kinv_eq_none_iff _).1 he)] at h
    cases h
  | some e =>
    rw [decodeFinish_live s e h1 he] at h
    obtain rfl := Host.Outcome.next.inj h
    split_ifs with hlen hdrain hempty hrange
    · exact ⟨[], _, _, rfl, by simp, hnone, .inr (.inr (.inl ⟨rfl, rfl⟩))⟩
    · exact ⟨[], _, _, rfl, by simp, hnone, .inr (.inr (.inr ⟨rfl, rfl⟩))⟩
    · exact ⟨[], _, _, rfl, by simp, hnone, .inl ⟨rfl, rfl⟩⟩
    · exact ⟨(toBytes s.dacc e.n.toNat).map .byte, _, _, by simp, by simpa using kinv_n_le_seven he,
        allBytes_map _, .inl ⟨rfl, rfl⟩⟩
    · exact ⟨[], _, _, rfl, by simp, hnone, .inr (.inr (.inr ⟨rfl, rfl⟩))⟩

/-- Settles O34: the responses of each command, counted; the two finish commands have room for their
`FIN` by `NB` at most 7 and a trailing group of at most 7 bytes. -/
theorem responsesPerCommand : Obligations.ResponsesPerCommand := by
  intro A i s t hs h
  obtain ⟨⟨hnb, -⟩, hdecode⟩ := (inv_iff A s).1 hs
  cases i with
  | nop =>
    obtain rfl := Host.Outcome.next.inj h
    exact ⟨[], by simp, by simp, rfl⟩
  | clr =>
    obtain rfl := Host.Outcome.next.inj h
    exact ⟨[], by simp, by simp, rfl⟩
  | encb b =>
    obtain ⟨rs, hrsp, hrs⟩ := encodeByte_responses h
    refine ⟨rs, hrsp, ?_, hrs⟩
    obtain rfl | ⟨hlen, -⟩ := hrs
    · simp
    · omega
  | encf =>
    obtain ⟨ss, hrsp, hlen, hss⟩ := encodeFinish_responses h
    have := partialLen_le_ten _ hnb
    exact ⟨_, hrsp, by simp; omega, ss, rfl, hlen, hss⟩
  | decs c =>
    obtain ⟨rs, hrsp, hrs⟩ := decodeChar_responses hdecode h
    refine ⟨rs, hrsp, ?_, hrs⟩
    obtain rfl | ⟨hlen, -⟩ := hrs
    · simp
    · omega
  | decf =>
    obtain ⟨bs, v, d, hrsp, hlen, hbs, -⟩ := decodeFinish_responses hdecode h
    exact ⟨_, hrsp, by simp; omega, bs, v, d, rfl, hlen, hbs⟩
  | rdst =>
    obtain rfl := Host.Outcome.next.inj h
    exact ⟨_, rfl, by simp, _, rfl⟩

/-! ## Every response is a legal one -/

/-- What R87 and R88 allow a response to carry. -/
def LegalResponse (A : Alphabet) : Response → Prop
  | .sym c => ∃ d, c = alpha A d
  | .byte _ => True
  | .fin v d => LegalFin A v d
  | .stat _ => True
  | .illc => True

theorem AllSymbols.legal {A : Alphabet} {rs : List Response} (h : AllSymbols A rs) :
    ∀ r ∈ rs, LegalResponse A r := by
  intro r hr
  obtain ⟨d, rfl⟩ := h r hr
  exact ⟨d, rfl⟩

theorem AllBytes.legal (A : Alphabet) {rs : List Response} (h : AllBytes rs) :
    ∀ r ∈ rs, LegalResponse A r := by
  intro r hr
  obtain ⟨b, rfl⟩ := h r hr
  trivial

/-- The responses of a finish command are legal if those before its `FIN` are. -/
theorem legal_append_fin {A : Alphabet} {rs : List Response} {v : BitVec 4} {d : Byte}
    (hrs : ∀ r ∈ rs, LegalResponse A r) (hfin : LegalFin A v d) :
    ∀ r ∈ rs ++ [.fin v d], LegalResponse A r := by
  intro r hr
  obtain hr | hr := List.mem_append.1 hr
  · exact hrs r hr
  · obtain rfl := List.mem_singleton.1 hr
    exact hfin

theorem execWith_legal_responses {A : Alphabet} {i : Instr} {s t : State} (hs : Inv A s)
    (h : execWith A i s = .next t) :
    ∃ rs : List Response, t.rsp = s.rsp ++ rs.map responseWord ∧ ∀ r ∈ rs, LegalResponse A r := by
  obtain ⟨-, hdecode⟩ := (inv_iff A s).1 hs
  cases i with
  | nop =>
    obtain rfl := Host.Outcome.next.inj h
    exact ⟨[], by simp, by simp⟩
  | clr =>
    obtain rfl := Host.Outcome.next.inj h
    exact ⟨[], by simp, by simp⟩
  | encb b =>
    obtain ⟨rs, hrsp, rfl | ⟨-, hrs⟩⟩ := encodeByte_responses h
    · exact ⟨[], hrsp, by simp⟩
    · exact ⟨rs, hrsp, hrs.legal⟩
  | encf =>
    obtain ⟨ss, hrsp, -, hss⟩ := encodeFinish_responses h
    exact ⟨_, hrsp, legal_append_fin hss.legal (.inl ⟨rfl, rfl⟩)⟩
  | decs c =>
    obtain ⟨rs, hrsp, rfl | ⟨-, hrs⟩⟩ := decodeChar_responses hdecode h
    · exact ⟨[], hrsp, by simp⟩
    · exact ⟨rs, hrsp, hrs.legal A⟩
  | decf =>
    obtain ⟨bs, v, d, hrsp, -, hbs, hfin⟩ := decodeFinish_responses hdecode h
    exact ⟨_, hrsp, legal_append_fin (hbs.legal A) hfin⟩
  | rdst =>
    obtain rfl := Host.Outcome.next.inj h
    exact ⟨[.stat (statusBits s)], rfl, by simp [LegalResponse]⟩

/-- A step that leaves no more words on offer answers none. -/
theorem newResponses_eq_nil {s t : State} (h : t.rsp.length ≤ s.rsp.length) :
    newResponses s t = [] :=
  List.drop_of_length_le h

/-- The words a step answers are those of legal responses, whatever the act of the host. -/
theorem stepWith_legal_responses {A : Alphabet} {s t : State} (hs : Inv A s)
    (h : stepWith A s = .next t) :
    ∃ rs : List Response, newResponses s t = rs.map responseWord ∧ ∀ r ∈ rs, LegalResponse A r := by
  obtain ⟨-, rfl⟩ | ⟨w, rest, i, -, -, hi⟩ | ⟨w, rest, e, -, -, rfl⟩ | ⟨rest, -, rfl⟩ |
    ⟨rest, -, rfl⟩ := stepBy_cases h
  · exact ⟨[], newResponses_eq_nil le_rfl, by simp⟩
  · obtain ⟨rs, hrsp, hrs⟩ := execWith_legal_responses (s := { s with host := rest }) hs hi
    exact ⟨rs, newResponses_append s t _ hrsp, hrs⟩
  · exact ⟨[.illc], newResponses_append s _ _ rfl, by simp [LegalResponse]⟩
  · exact ⟨[], newResponses_eq_nil (by simp), by simp⟩
  · exact ⟨[], newResponses_eq_nil (by simp), by simp⟩

/-- Settles O39: every word answered is that of a legal response, told here by its kind. -/
theorem onlyLegalResponseWords : Obligations.OnlyLegalResponseWords := by
  intro A s t hs h w hw
  obtain ⟨rs, hrs, hlegal⟩ := stepWith_legal_responses hs h
  rw [hrs] at hw
  obtain ⟨r, hr, rfl⟩ := List.mem_map.1 hw
  have hr := hlegal r hr
  cases r with
  | sym c =>
    obtain ⟨d, rfl⟩ := hr
    exact .inl ⟨d, rfl⟩
  | byte b => exact .inr (.inl ⟨b, rfl⟩)
  | fin v d =>
    obtain ⟨rfl, rfl⟩ | ⟨rfl, hd⟩ | ⟨rfl, rfl⟩ | ⟨rfl, rfl⟩ := hr
    · exact .inr (.inr (.inl rfl))
    · exact .inr (.inr (.inr (.inl ⟨d, hd, rfl⟩)))
    · exact .inr (.inr (.inr (.inr (.inl rfl))))
    · exact .inr (.inr (.inr (.inr (.inr (.inl rfl)))))
  | stat st => exact .inr (.inr (.inr (.inr (.inr (.inr (.inl ⟨st, rfl⟩))))))
  | illc => exact .inr (.inr (.inr (.inr (.inr (.inr (.inr rfl))))))

end Sys2Proof.Machine
end

section
/-! ## The datapath functions against the reference values -/

namespace Sys2Proof.Machine

/-- The loop of `ToDigits` divides its working value by 60 in each iteration (R112). -/
theorem toDigits_fst (K v : Nat) (dig : Vector Digit 11) : (toDigits K v dig).1 = v / 60 ^ K := by
  induction K generalizing v dig with
  | zero => simp
  | succ k ih => rw [toDigits_succ, ih, Nat.div_div_eq_div_mul, pow_succ']

/-- The last place of a value in base `b` holds the value itself, the places before it are those of
its quotient by `b`. -/
theorem map_div_pow_range_succ {α : Type} (f : Nat → α) (b v n : Nat) :
    ((List.range (n + 1)).map fun j => f (v / b ^ (n + 1 - 1 - j))) =
      ((List.range n).map fun j => f (v / b / b ^ (n - 1 - j))) ++ [f v] := by
  rw [List.range_succ, List.map_append, List.map_singleton]
  congr 1
  · refine List.map_congr_left fun j hj => ?_
    have hexp : n + 1 - 1 - j = n - 1 - j + 1 := by have := List.mem_range.1 hj; omega
    rw [hexp, pow_succ', Nat.div_div_eq_div_mul]
  · simp

/-- The last digit of a value is its remainder, the others are those of its quotient (R170). -/
theorem digitsOf_succ (v K : Nat) :
    digitsOf v (K + 1) = digitsOf (v / 60) K ++ [remainder60 v] :=
  map_div_pow_range_succ remainder60 60 v K

/-- The last byte of a value is its low byte, the others are those of its quotient (R117, R171). -/
theorem bytesOf_succ (v n : Nat) :
    bytesOf v (n + 1) = bytesOf (v / 256) n ++ [BitVec.ofNat 8 v] :=
  map_div_pow_range_succ (BitVec.ofNat 8) 256 v n

/-- The `K` digits of a value spell it up to multiples of `60^K` (R121). -/
theorem groupValue_digitsOf (v K : Nat) : groupValue (digitsOf v K) = v % 60 ^ K := by
  induction K generalizing v with
  | zero => simp [digitsOf, Nat.mod_one]
  | succ k ih =>
    rw [digitsOf_succ, groupValue_append_singleton, ih, remainder60_val, pow_succ', Nat.mod_mul]
    ring

/-- The `n` bytes of a value spell it up to multiples of `256^n` (R117). -/
theorem blockValue_bytesOf (v n : Nat) : blockValue (bytesOf v n) = v % 256 ^ n := by
  induction n generalizing v with
  | zero => simp [bytesOf, Nat.mod_one]
  | succ k ih =>
    rw [bytesOf_succ, blockValue_append_singleton, ih, BitVec.toNat_ofNat, pow_succ' 256,
      Nat.mod_mul]
    omega

/-- The digits of a group's value are the group (R122). -/
theorem digitsOf_groupValue (ds : List Digit) : digitsOf (groupValue ds) ds.length = ds := by
  induction ds using List.reverseRecOn with
  | nil => rfl
  | append_singleton ds d ih =>
    have hd := d.isLt
    have hquot : (groupValue ds * 60 + d.val) / 60 = groupValue ds := by omega
    have hrem : remainder60 (groupValue ds * 60 + d.val) = d :=
      Fin.ext (by rw [remainder60_val]; omega)
    rw [groupValue_append_singleton, List.length_append, List.length_singleton, digitsOf_succ,
      hquot, hrem, ih]

/-- `ToBytes` of a value that fits spells the value (R117). -/
theorem blockValue_toBytes {v : BitVec 65} {n : Nat} (h : v.toNat < 2 ^ (8 * n)) :
    blockValue (toBytes v n) = v.toNat := by
  rw [toBytes_eq_bytesOf, blockValue_bytesOf, Nat.mod_eq_of_lt (by rwa [pow_mul] at h)]

/-- Byte `i` of `ToBytes(v, n)` is a slice of `v` (R117). -/
theorem toBytes_getElem? (v : BitVec 65) {n i : Nat} (h : i < n) :
    (toBytes v n)[i]? = some (v.extractLsb' (8 * (n - 1 - i)) 8) := by
  have hslice : BitVec.ofNat 8 (v.toNat / 2 ^ (8 * (n - 1 - i))) =
      v.extractLsb' (8 * (n - 1 - i)) 8 :=
    BitVec.eq_of_toNat_eq (by simp [Nat.shiftRight_eq_div_pow])
  simp [toBytes, h, hslice]

/-- `ShiftIn` folded over at most 8 bytes, from 0, loses nothing (R110). -/
theorem foldl_shiftIn_toNat (bs : List Byte) (h : bs.length ≤ 8) :
    (bs.foldl shiftIn 0#64).toNat = blockValue bs := by
  induction bs using List.reverseRecOn with
  | nil => rfl
  | append_singleton bs b ih =>
    rw [List.length_append, List.length_singleton] at h
    have hacc := ih (by omega)
    have hroom : (bs.foldl shiftIn 0#64).toNat < 2 ^ 56 :=
      calc (bs.foldl shiftIn 0#64).toNat = blockValue bs := hacc
        _ < 2 ^ (8 * bs.length) := blockValue_lt bs
        _ ≤ 2 ^ 56 := Nat.pow_le_pow_right (by decide) (by omega)
    rw [List.foldl_append, List.foldl_cons, List.foldl_nil, shiftIn_toNat _ b hroom, hacc,
      blockValue_append_singleton]

/-- `Horner` folded over at most 11 digits, from 0, is exact (R114). -/
theorem foldl_horner_toNat (ds : List Digit) (h : ds.length ≤ 11) :
    (ds.foldl horner 0#65).toNat = groupValue ds := by
  induction ds using List.reverseRecOn with
  | nil => rfl
  | append_singleton ds d ih =>
    rw [List.length_append, List.length_singleton] at h
    have hacc := ih (by omega)
    have hroom : (ds.foldl horner 0#65).toNat < 60 ^ 10 :=
      calc (ds.foldl horner 0#65).toNat = groupValue ds := hacc
        _ < 60 ^ ds.length := groupValue_lt ds
        _ ≤ 60 ^ 10 := Nat.pow_le_pow_right (by decide) (by omega)
    rw [List.foldl_append, List.foldl_cons, List.foldl_nil, horner_toNat_exact _ d hroom, hacc,
      groupValue_append_singleton]

/-- `v < 2^m` says that no bit of `v` from `m` up is set (R116). -/
theorem toNat_lt_iff_ushiftRight_eq_zero {w : Nat} (v : BitVec w) (m : Nat) :
    v.toNat < 2 ^ m ↔ v >>> m = 0#w := by
  rw [← BitVec.toNat_inj, BitVec.toNat_ushiftRight, Nat.shiftRight_eq_div_pow, BitVec.toNat_zero,
    Nat.div_eq_zero_iff_lt (Nat.two_pow_pos m)]

/-- Settles O19: the closed form by induction on the iterations left; below `60^K` nothing is left
of the value and its digits spell it. -/
theorem toDigitsClosedForm : Obligations.ToDigitsClosedForm := by
  refine fun K v dig hK => ⟨toDigits_fst K v dig, toDigits_getElem K v dig hK, fun hv => ⟨?_, ?_⟩⟩
  · rw [toDigits_fst, Nat.div_eq_of_lt hv]
  · rw [readDigits_toDigits K v dig hK, groupValue_digitsOf, Nat.mod_eq_of_lt hv]

/-- Settles O21: a group's value and its digits determine each other, and the fold of `Horner` is
that value; a group whose value fits the block is spelled by the block's bytes too. -/
theorem hornerAndToDigitsAreInverse : Obligations.HornerAndToDigitsAreInverse := by
  refine ⟨fun K v dig _ hK hv => ?_, fun ds dig _ hlen => ?_, fun ds n K _ _ hk hlen hv => ?_⟩
  · rw [readDigits_toDigits K v dig hK, foldl_horner_toNat _ (by rwa [digitsOf_length]),
      groupValue_digitsOf, Nat.mod_eq_of_lt hv]
  · rw [readDigits_toDigits _ _ _ hlen, foldl_horner_toNat ds hlen, digitsOf_groupValue]
  · rw [blockValue_toBytes hv, foldl_horner_toNat ds (hlen.trans_le (ktab_le_eleven hk)), ← hlen,
      digitsOf_groupValue]

/-- Settles O23: the length, each byte as a slice, and the value. -/
theorem toBytesIsBigEndian : Obligations.ToBytesIsBigEndian := fun v n _ _ hv =>
  ⟨toBytes_length v n, fun _ => toBytes_getElem? v, blockValue_toBytes hv⟩

/-- Settles O18: one byte, and by induction the bytes of a block. -/
theorem shiftInIsExact : Obligations.ShiftInIsExact :=
  ⟨shiftIn_toNat, fun bs h => ⟨foldl_shiftIn_toNat bs h, blockValue_lt bs⟩⟩

/-- Settles O20: one digit, and by induction the digits of a group. -/
theorem hornerIsExact : Obligations.HornerIsExact := by
  refine ⟨fun acc d h => ?_, fun ds h => ⟨foldl_horner_toNat ds h, groupValue_lt ds⟩⟩
  have hexact := horner_toNat_exact acc d h
  exact ⟨hexact, hexact.trans_lt (mul_sixty_add_digit_lt d h)⟩

/-- Settles O22: the comparison itself, its form as a shift, and the two sides of the boundary,
where `2^(8n)` still fits the 65 bits of `DACC`. -/
theorem rangeCheckIsStrict : Obligations.RangeCheckIsStrict := by
  intro n _ h8
  have hfits : 2 ^ (8 * n) < 2 ^ 65 := Nat.pow_lt_pow_right (by decide) (by omega)
  have hpos : 0 < 2 ^ (8 * n) := Nat.two_pow_pos _
  refine ⟨fun v => ⟨inRange_iff v n, (inRange_iff v n).trans
    (toNat_lt_iff_ushiftRight_eq_zero v (8 * n))⟩, ?_, ?_⟩
  · rw [inRange_iff, BitVec.toNat_ofNat, Nat.mod_eq_of_lt (by omega)]
    omega
  · rw [← Bool.not_eq_true, inRange_iff, BitVec.toNat_ofNat, Nat.mod_eq_of_lt hfits]
    exact lt_irrefl _

end Sys2Proof.Machine
end

section
/-! ## The encode commands as equations of whole states -/

namespace Sys2Proof.Machine

/-- The buffer after `ToDigits(v, K)`: the digits of `v` in `DIG[0..K-1]`, the rest as it was (R112). -/
theorem toDigits_snd (K v : Nat) (dig : Vector Digit 11) (hK : K ≤ 11) :
    (toDigits K v dig).2 = Vector.ofFn fun j : Fin 11 =>
      if j.val < K then remainder60 (v / 60 ^ (K - 1 - j.val)) else dig[j.val] :=
  Vector.ext fun j hj => by rw [toDigits_getElem K v dig hK j hj, Vector.getElem_ofFn]

/-- A full group writes every entry of the buffer, so nothing of the old one is left (R26, R112). -/
theorem toDigits_eleven_snd (v : Nat) (dig : Vector Digit 11) :
    (toDigits 11 v dig).2 = Vector.ofFn fun j : Fin 11 => remainder60 (v / 60 ^ (10 - j.val)) := by
  simp [toDigits_snd]

/-- Closing a block writes `EACC`, `NB`, `DIG` and the response channel, and nothing else (R130, R131). -/
theorem clearEncodeSide_emitGroup (A : Alphabet) {K : Nat} (hK : K ≤ 11) (s : State) :
    clearEncodeSide (emitGroup A K s) =
      { s with
        eacc := 0#64
        nb := 0#4
        dig := (toDigits K s.eacc.toNat s.dig).2
        rsp := s.rsp ++ (digitsOf s.eacc.toNat K).map fun d => responseWord (.sym (alpha A d)) } := by
  simp [emitGroup_eq A hK, clearEncodeSide, emit]

theorem exec_encb (b : Byte) (s : State) : exec (.encb b) s = encodeByte alphabet b s := rfl

theorem exec_encf (s : State) : exec .encf s = encodeFinish alphabet s := rfl

/-- Settles O27: below the 8th byte the registers follow `ShiftIn` exactly; on the 8th the closed block
has the exact value of its bytes. -/
theorem encbTakesAByte : Obligations.EncbTakesAByte := by
  intro b s _ hroom
  have hexact := shiftIn_toNat s.eacc b hroom
  refine ⟨fun hopen => ?_, fun hlast => ?_⟩
  · have hacc : shiftIn s.eacc b = BitVec.ofNat 64 (s.eacc.toNat * 256 + b.toNat) := by
      rw [← hexact, BitVec.ofNat_toNat, BitVec.setWidth_eq]
    have hcount : s.nb + 1#4 = BitVec.ofNat 4 (s.nb.toNat + 1) := by
      rw [← counter_succ_toNat (by omega), BitVec.ofNat_toNat, BitVec.setWidth_eq]
    rw [exec_encb, encodeByte_open _ _ _ (mt (succ_eq_eight_iff s.nb).1 hopen.ne), hacc, hcount]
  · rw [exec_encb, encodeByte_close _ _ _ ((succ_eq_eight_iff s.nb).2 hlast),
      clearEncodeSide_emitGroup _ le_rfl, toDigits_eleven_snd, hexact]

/-- Settles O28: at a block boundary `FIN(0, 0)` alone, else the trailing block closed before it. -/
theorem encfFinishesTheStream : Obligations.EncfFinishesTheStream := by
  refine fun s => ⟨fun h0 => ?_, fun K hpos _ hK => ?_⟩
  · rw [exec_encf, encodeFinish_empty _ _ h0]
    rfl
  · have hne : s.nb ≠ 0#4 := by
      intro h0
      simp [h0] at hpos
    have hK11 := ktab_le_eleven hK
    rw [exec_encf, encodeFinish_partial _ _ K hne hK, clearEncodeSide_emitGroup _ hK11,
      toDigits_snd _ _ _ hK11]
    rfl

end Sys2Proof.Machine
end

section
/-! ## The decode commands as equations of whole states -/

namespace Sys2Proof.Machine

theorem exec_decs (c : Byte) (s : State) : exec (.decs c) s = decodeChar alphabet c s := rfl

theorem exec_decf (s : State) : exec .decf s = decodeFinish s := rfl

/-- `Horner` is the number `acc * 60 + d` in the 65 bits of `DACC` (R114). -/
theorem horner_eq_ofNat (acc : BitVec 65) (d : Digit) :
    horner acc d = BitVec.ofNat 65 (acc.toNat * 60 + d.val) := by
  simp [horner, BitVec.ofNat_add, BitVec.ofNat_mul]

/-- A digit before the 11th of its group: the value and the count as numbers (R141). -/
theorem acceptDigit_middle (d : Digit) (s : State) (hns : s.ns.toNat < 10) :
    acceptDigit d s =
      { s with
        dacc := BitVec.ofNat 65 (s.dacc.toNat * 60 + d.val)
        ns := BitVec.ofNat 4 (s.ns.toNat + 1) } := by
  have hcount : s.ns + 1#4 = BitVec.ofNat 4 (s.ns.toNat + 1) := by simp [BitVec.ofNat_add]
  rw [acceptDigit_open d s (mt (succ_eq_eleven_iff s.ns).1 hns.ne), horner_eq_ofNat, hcount]

/-- The 11th digit of a group: its 8 bytes below `2^64`, else drain (R141, R203). -/
theorem acceptDigit_eleventh (d : Digit) (s : State) (h0 : s.err = 0#3)
    (hv : s.dacc.toNat < 60 ^ 10) (hns : s.ns.toNat = 10) :
    acceptDigit d s =
      if s.dacc.toNat * 60 + d.val < 2 ^ 64 then
        { s with
          dacc := 0#65
          ns := 0#4
          rsp := s.rsp ++
            (bytesOf (s.dacc.toNat * 60 + d.val) 8).map fun b => responseWord (.byte b) }
      else { s with dacc := 0#65, ns := 0#4, err := 3#3 } := by
  rw [← horner_toNat_exact s.dacc d hv]
  obtain ⟨hopen, -⟩ | ⟨-, hlt, heq⟩ | ⟨-, hge, heq⟩ := acceptDigit_cases d s h0
  · exact absurd hns hopen
  · rw [if_pos hlt, heq]
    simp [emit, toBytes_eq_bytesOf]
  · rw [if_neg hge.not_gt, heq]

/-- Settles O29: the conditions of `DECS` one by one; in the clean one the place in the group
decides. -/
theorem decsByCondition : Obligations.DecsByCondition := by
  intro c s
  have hclean (h0 : s.err = 0#3) (hc : (inv alphabet c).valid = true) :
      exec (.decs c) s = .next (acceptDigit (inv alphabet c).value s) :=
    decodeChar_clean alphabet c s (by simp [h0]) (by simp [h0]) hc
  refine ⟨decodeChar_dead alphabet c s, fun hlive hc => ?_, decodeChar_drain alphabet c s,
    fun h0 hc _ hns => ?_, fun h0 hc hv hns => ?_⟩
  · have h1 : s.err ≠ 1#3 := by obtain h | h := hlive <;> simp [h]
    rw [exec_decs, decodeChar_invalid alphabet c s h1 hc, raise_invalidCharacter c s hlive]
  · rw [hclean h0 hc, acceptDigit_middle _ s hns]
  · rw [hclean h0 hc, acceptDigit_eleventh _ s h0 hv hns]

/-- The responses of `DECF` where `KINV[NS]` is `e`: InvalidCharacter over InvalidLength over
ValueOutOfRange over success (R142, R202). -/
def finishResponses (e : KinvEntry) (s : State) : List Response :=
  if s.err = 1#3 then [.fin 1#4 s.echr]
  else if e.valid = false then [.fin 2#4 0#8]
  else if s.err = 3#3 then [.fin 3#4 0#8]
  else if e.n = 0#4 then [.fin 0#4 0#8]
  else if inRange s.dacc e.n.toNat then (toBytes s.dacc e.n.toNat).map .byte ++ [.fin 0#4 0#8]
  else [.fin 3#4 0#8]

/-- `DECF` answers its responses and clears the decode side, whatever the verdict (R142). -/
theorem decodeFinish_eq {s : State} {e : KinvEntry} (he : kinv s.ns.toNat = some e) :
    decodeFinish s = .next (clearDecodeSide (emit (finishResponses e s) s)) := by
  by_cases h1 : s.err = 1#3
  · rw [decodeFinish_dead s h1, finishResponses, if_pos h1]
    rfl
  · rw [decodeFinish_live s e h1 he, finishResponses, if_neg h1]
    split_ifs
    · rfl
    · rfl
    · rfl
    · simp [closeDecode, clearDecodeSide, emit]
    · rfl

/-- The entries of `KINV`: invalid at 1, 4 and 8, and no bytes in a valid one but at 0 (R54). -/
theorem kinv_entry {r : Nat} {e : KinvEntry} (h : kinv r = some e) :
    (e.valid = false ↔ r = 1 ∨ r = 4 ∨ r = 8) ∧ (e.valid = true → (e.n = 0#4 ↔ r = 0)) := by
  have hr : r < 11 := by
    by_contra hr
    simp [(kinv_eq_none_iff r).2 (by omega)] at h
  have table : ∀ m < 11, ∀ e ∈ kinv m,
      (e.valid = false ↔ m = 1 ∨ m = 4 ∨ m = 8) ∧ (e.valid = true → (e.n = 0#4 ↔ m = 0)) := by
    decide
  exact table r hr e h

/-- Settles O30: each clause picks one verdict out of `finishResponses` by `ERR` and the row
of `KINV`. -/
theorem decfReportsTheVerdict : Obligations.DecfReportsTheVerdict := by
  intro s _ hns
  obtain ⟨e, he⟩ : ∃ e, kinv s.ns.toNat = some e :=
    Option.ne_none_iff_exists'.1 (mt (kinv_eq_none_iff _).1 (by omega))
  obtain ⟨hinvalid, hempty⟩ := kinv_entry he
  refine ⟨(finishResponses e s).map responseWord, ?_, fun h1 => ?_, fun h1 hlen => ?_,
    fun h3 hne1 hne4 hne8 => ?_, fun h0 hz => ?_, fun n h0 hnz hn => ?_⟩
  · rw [exec_decf, decodeFinish_eq he]
    rfl
  · simp [finishResponses, h1]
  · simp [finishResponses, h1, hinvalid.2 hlen, responseWord]
  · have hvalid : e.valid = true := by
      rw [← Bool.not_eq_false, hinvalid]
      tauto
    simp [finishResponses, h3, hvalid, responseWord]
  · have hvalid : e.valid = true := by simp [← Bool.not_eq_false, hinvalid, hz]
    simp [finishResponses, h0, hvalid, (hempty hvalid).2 hz, responseWord]
  · obtain rfl : e = ⟨true, n⟩ := Option.some.inj (he.symm.trans hn)
    have hn0 : n ≠ 0#4 := mt (hempty rfl).1 hnz
    by_cases hrange : s.dacc.toNat < 2 ^ (8 * n.toNat)
    · simp [finishResponses, h0, hn0, inRange, hrange, toBytes_eq_bytesOf, responseWord]
    · simp [finishResponses, h0, hn0, inRange, hrange, responseWord]

/-! ## The error condition -/

/-- The transitions of R140 that a `DECS` makes: clean to drain, clean to dead, drain to dead. -/
def Worsens (old new : BitVec 3) : Prop :=
  (old = 0#3 ∧ new = 3#3) ∨ (old = 0#3 ∧ new = 1#3) ∨ (old = 3#3 ∧ new = 1#3)

/-- A digit leaves a clean stream clean, or sends it to drain (R141). -/
theorem acceptDigit_err (d : Digit) (s : State) (h0 : s.err = 0#3) :
    (acceptDigit d s).err = 0#3 ∨ (acceptDigit d s).err = 3#3 := by
  obtain ⟨-, heq⟩ | ⟨-, -, heq⟩ | ⟨-, -, heq⟩ := acceptDigit_cases d s h0
  · exact .inl (by rw [heq]; exact h0)
  · exact .inl (by rw [heq]; exact h0)
  · exact .inr (by rw [heq])

/-- `DECS` keeps the condition or worsens it (R140, R141). -/
theorem decodeChar_err {A : Alphabet} {c : Byte} {s t : State}
    (hs : s.err = 0#3 ∨ s.err = 1#3 ∨ s.err = 3#3) (h : decodeChar A c s = .next t) :
    t.err = s.err ∨ Worsens s.err t.err := by
  by_cases h1 : s.err = 1#3
  · rw [decodeChar_dead A c s h1] at h
    obtain rfl := Host.Outcome.next.inj h
    exact .inl rfl
  have hlive : s.err = 0#3 ∨ s.err = 3#3 := by tauto
  cases hc : (inv A c).valid with
  | false =>
    rw [decodeChar_invalid A c s h1 hc, raise_invalidCharacter c s hlive] at h
    obtain rfl := Host.Outcome.next.inj h
    exact .inr (.inr (hlive.imp (⟨·, rfl⟩) (⟨·, rfl⟩)))
  | true =>
    obtain h0 | h3 := hlive
    · rw [decodeChar_clean A c s h1 (by simp [h0]) hc] at h
      obtain rfl := Host.Outcome.next.inj h
      exact (acceptDigit_err _ s h0).imp (·.trans h0.symm) fun hdrain => .inl ⟨h0, hdrain⟩
    · rw [decodeChar_drain A c s h3 hc] at h
      obtain rfl := Host.Outcome.next.inj h
      exact .inl rfl

/-- What an instruction can do to the condition: keep it, worsen it by a `DECS`, or clear it by `DECF`
or `CLR` (R140). -/
theorem execWith_err {A : Alphabet} {i : Instr} {s t : State}
    (hs : s.err = 0#3 ∨ s.err = 1#3 ∨ s.err = 3#3) (h : execWith A i s = .next t) :
    t.err = s.err ∨ (Worsens s.err t.err ∧ ∃ c, i = .decs c) ∨
      (t.err = 0#3 ∧ (i = .decf ∨ i = .clr)) := by
  obtain ⟨-, rfl⟩ | ⟨rfl, rfl⟩ | ⟨-, rfl⟩ | ⟨-, dig, u, -, rfl⟩ | ⟨hi, -⟩ := execWith_cases h
  · exact .inl rfl
  · exact .inr (.inr ⟨rfl, .inr rfl⟩)
  · exact .inl rfl
  · exact .inl rfl
  · obtain ⟨c, rfl⟩ | rfl := hi
    · exact (decodeChar_err hs h).imp_right fun hworse => .inl ⟨hworse, c, rfl⟩
    · obtain ⟨-, -, herr, -⟩ := decodeFinish_clear h
      exact .inr (.inr ⟨herr, .inl rfl⟩)

/-- Settles O36: of the acts of the host only a reset and the instructions of `execWith_err` write
`ERR`. -/
theorem errorConditionTransitions : Obligations.ErrorConditionTransitions := by
  intro A s t hs h hne
  obtain ⟨-, -, -, herr, -⟩ := hs
  obtain ⟨-, rfl⟩ | ⟨w, rest, i, hh, hd, hi⟩ | ⟨w, rest, e, -, -, rfl⟩ | ⟨rest, -, rfl⟩ |
    ⟨rest, hh, rfl⟩ := stepBy_cases h
  · exact absurd rfl hne
  · obtain rfl := encode_eq_of_decode hd
    obtain heq | ⟨hworse, c, rfl⟩ | ⟨hclear, rfl | rfl⟩ :=
      execWith_err (s := { s with host := rest }) herr hi
    · exact absurd heq hne
    · exact .inl ⟨hworse, c, by rw [hh]; rfl⟩
    · exact .inr ⟨hclear, .inl (by rw [hh]; rfl)⟩
    · exact .inr ⟨hclear, .inr (.inl (by rw [hh]; rfl))⟩
  · exact absurd rfl hne
  · exact absurd rfl hne
  · exact .inr ⟨rfl, .inr (.inr (by rw [hh]; rfl))⟩

end Sys2Proof.Machine
end

section
namespace Sys2Proof.Machine

/-! ## The control commands and the illegal word -/

/-- A word that does not decode runs as the illegal command (R94, R163). -/
theorem runWord_illegal (ex : Meaning) {w : Word16} {e : IllegalWord} (h : decode w = .error e)
    (s : State) : runWord ex w s = .next (illegalCommand s) := by
  simp [runWord, h]

/-- Settles O4: a word of no row does not decode, so the step is the illegal command. -/
theorem illegalWordSetsTheFlag : Obligations.IllegalWordSetsTheFlag := by
  intro s w rest hhost hno
  obtain ⟨e, he⟩ := (decode_error_iff_no_match w).2 hno
  rw [step, stepBy_event exec s _ rest hhost]
  exact runWord_illegal exec he _

/-- Settles O24: `NOP` answers the state as it is. -/
theorem nopDoesNothing : Obligations.NopDoesNothing := fun _ => rfl

/-- Clearing the registers leaves nothing but `DIG` and the channels beside the reset state (R161,
R31). -/
theorem clearRegisters_eq_reset (s : State) : clearRegisters s = { State.reset with
    dig := s.dig, rsp := s.rsp, delivered := s.delivered, host := s.host } := rfl

theorem exec_clr (s : State) : exec .clr s = .next (clearRegisters s) := rfl

/-- Settles O25: `CLR` clears the registers, and every other instruction keeps `ILL`. -/
theorem clrGivesTheResetState : Obligations.ClrGivesTheResetState := by
  refine ⟨exec_clr, fun s => by rw [exec_clr, clearRegisters_eq_reset], ?_⟩
  intro i s t h hset hclear
  rw [exec_eq_execWith] at h
  obtain hkept | ⟨hi, -⟩ := execWith_ill h
  · simp [hkept, hset] at hclear
  · exact hi

/-- The status is `ILL`, `ERR`, `NS` and `NB` one after the other (R89). -/
theorem statusBits_eq_append (s : State) : statusBits s = (s.ill ++ s.err) ++ (s.ns ++ s.nb) :=
  calc statusBits s
    _ = (s.ill ++ s.err ++ s.ns ++ s.nb).setWidth 12 :=
        (BitVec.setWidth_append_append_append_eq_shiftLeft_setWidth_or
          (b := s.ill) (b' := s.err) (b'' := s.ns) (b''' := s.nb)).symm
    _ = s.ill ++ s.err ++ s.ns ++ s.nb := BitVec.setWidth_eq _
    _ = (s.ill ++ s.err) ++ (s.ns ++ s.nb) := BitVec.append_assoc ..

/-- One field after another, as a number. -/
theorem toNat_append_eq_add {m n : Nat} (x : BitVec m) (y : BitVec n) :
    (x ++ y).toNat = x.toNat * 2 ^ n + y.toNat := by
  rw [BitVec.toNat_append, ← Nat.shiftLeft_add_eq_or_of_lt y.isLt, Nat.shiftLeft_eq]

/-- The `STAT` word as a number: the fields of R89 in their places under `kind` 0x4 (R87). -/
theorem responseWord_statusBits_toNat (s : State) : (responseWord (.stat (statusBits s))).toNat =
    0x4000 + s.ill.toNat * 2 ^ 11 + s.err.toNat * 2 ^ 8 + s.ns.toNat * 2 ^ 4 + s.nb.toNat := by
  rw [statusBits_eq_append, responseWord_stat, packFields]
  simp only [toNat_append_eq_add, BitVec.toNat_ofNat]
  omega

/-- Settles O26: the word answered is that of the status. -/
theorem rdstReportsTheStatus : Obligations.RdstReportsTheStatus := fun s =>
  ⟨responseWord (.stat (statusBits s)), rfl, responseWord_statusBits_toNat s⟩

end Sys2Proof.Machine
end

section
/-! ## The whole-buffer functions over blocks and groups -/

namespace Sys2Proof.Machine

/-! ### Cutting a list into runs and putting it together again -/

section
variable {α : Type} {k : Nat}

/-- The runs of a list, put together, are the list (R57). -/
theorem flatten_fullChunks_append (hk : 0 < k) (l : List α) :
    (fullChunks k l).flatten ++ lastChunk k l = l := by
  induction l using List.reverseRecOn with
  | nil => simp
  | append_singleton l x ih =>
    by_cases hfull : l.length % k + 1 = k
    · rw [fullChunks_append_full x hfull, lastChunk_append_full x hfull, List.flatten_concat,
        List.append_nil, ← List.append_assoc, ih]
    · rw [fullChunks_append_open x hk hfull, lastChunk_append_open x hk hfull, ← List.append_assoc,
        ih]

/-- A full run has `k` elements. -/
theorem length_of_mem_fullChunks {l c : List α} (h : c ∈ fullChunks k l) : c.length = k := by
  obtain ⟨m, hm, rfl⟩ := List.mem_map.1 h
  have hend := chunk_end_le (List.mem_range.1 hm)
  rw [chunk, List.length_take, List.length_drop]
  omega

theorem mem_of_mem_fullChunks {l c : List α} {x : α} (hc : c ∈ fullChunks k l) (hx : x ∈ c) :
    x ∈ l := by
  obtain ⟨m, -, rfl⟩ := List.mem_map.1 hc
  exact List.mem_of_mem_drop (List.mem_of_mem_take hx)

theorem mem_of_mem_lastChunk {l : List α} {x : α} (hx : x ∈ lastChunk k l) : x ∈ l :=
  List.mem_of_mem_drop hx

section
variable (hk : 0 < k) {c : List α} (hc : c.length = k) (l : List α)
include hk hc

theorem length_append_div : (c ++ l).length / k = l.length / k + 1 := by
  rw [List.length_append, hc, Nat.add_div_left _ hk]

/-- A run of `k` elements in front is the first full run. -/
theorem fullChunks_append_left : fullChunks k (c ++ l) = c :: fullChunks k l := by
  have hfirst : chunk k 0 (c ++ l) = c := by
    rw [chunk, Nat.mul_zero, List.drop_zero, List.take_left' hc]
  have hlater (m : Nat) : chunk k (m + 1) (c ++ l) = chunk k m l := by
    rw [chunk, chunk, Nat.mul_succ, Nat.add_comm, ← List.drop_drop, List.drop_left' hc]
  rw [fullChunks, length_append_div hk hc, List.range_succ_eq_map, List.map_cons, hfirst,
    List.map_map]
  exact congrArg (c :: ·) (List.map_congr_left fun m _ => hlater m)

theorem lastChunk_append_left : lastChunk k (c ++ l) = lastChunk k l := by
  rw [lastChunk, length_append_div hk hc, Nat.mul_succ, Nat.add_comm, ← List.drop_drop,
    List.drop_left' hc, lastChunk]

end

/-- Full runs followed by fewer than `k` elements are the cut of what they make together. -/
theorem chunks_flatten_append (hk : 0 < k) {cs : List (List α)} (hcs : ∀ c ∈ cs, c.length = k)
    {r : List α} (hr : r.length < k) :
    fullChunks k (cs.flatten ++ r) = cs ∧ lastChunk k (cs.flatten ++ r) = r := by
  induction cs with
  | nil => simp [fullChunks, lastChunk, Nat.div_eq_of_lt hr]
  | cons c cs ih =>
    obtain ⟨hfull, hlast⟩ := ih fun x hx => hcs x (List.mem_cons_of_mem _ hx)
    have hc := hcs c List.mem_cons_self
    rw [List.flatten_cons, List.append_assoc]
    exact ⟨by rw [fullChunks_append_left hk hc, hfull],
      by rw [lastChunk_append_left hk hc, hlast]⟩

end

/-! ### One block and its group -/

/-- The bytes of a block's value are the block (R117, R171). -/
theorem bytesOf_blockValue (bs : List Byte) : bytesOf (blockValue bs) bs.length = bs := by
  induction bs using List.reverseRecOn with
  | nil => rfl
  | append_singleton bs b ih =>
    have hb := b.isLt
    have hquot : (blockValue bs * 256 + b.toNat) / 256 = blockValue bs := by omega
    have hrem : BitVec.ofNat 8 (blockValue bs * 256 + b.toNat) = b :=
      BitVec.eq_of_toNat_eq (by rw [BitVec.toNat_ofNat]; omega)
    rw [blockValue_append_singleton, List.length_append, List.length_singleton, bytesOf_succ,
      hquot, hrem, ih]

/-- A valid code is the symbol of the digit that `INV` gives for it (R53). -/
theorem alpha_inv {A : Alphabet} {c : Byte} (h : (inv A c).valid = true) :
    alpha A (inv A c).value = c := by
  by_contra hne
  have hnone : ∀ d : Digit, alpha A d ≠ c := by
    rintro d rfl
    exact hne (by rw [inv_alpha])
  simp [inv_of_forall_alpha_ne hnone] at h

/-- The symbols of a block are valid codes. -/
theorem valid_of_mem_encodeBlock {A : Alphabet} {block : List Byte} {K : Nat} {c : Byte}
    (h : c ∈ encodeBlock A block K) : (inv A c).valid = true := by
  obtain ⟨d, -, rfl⟩ := List.mem_map.1 h
  rw [inv_alpha]

/-- A block whose value `K` digits can hold is read back from its symbols (R121, R170). -/
theorem charsValue_encodeBlock (A : Alphabet) {block : List Byte} {K : Nat}
    (hK : 2 ^ (8 * block.length) ≤ 60 ^ K) :
    charsValue A (encodeBlock A block K) = blockValue block := by
  have hdigits : ((encodeBlock A block K).map fun c => (inv A c).value) =
      digitsOf (blockValue block) K := by
    simp [encodeBlock, Function.comp_def]
  rw [charsValue, hdigits, groupValue_digitsOf,
    Nat.mod_eq_of_lt ((blockValue_lt block).trans_le hK)]

/-- A group of symbols whose value `n` bytes can hold is the encoding of those bytes (R122). -/
theorem encodeBlock_bytesOf {A : Alphabet} {g : List Byte} {n : Nat}
    (hg : ∀ c ∈ g, (inv A c).valid = true) (hn : charsValue A g < 2 ^ (8 * n)) :
    encodeBlock A (bytesOf (charsValue A g) n) g.length = g := by
  have hdigits : digitsOf (charsValue A g) g.length = g.map fun c => (inv A c).value := by
    simpa [charsValue] using digitsOf_groupValue (g.map fun c => (inv A c).value)
  have hfits : charsValue A g < 256 ^ n := by rwa [pow_mul] at hn
  rw [encodeBlock, blockValue_bytesOf, Nat.mod_eq_of_lt hfits, hdigits, List.map_map]
  exact (List.map_congr_left fun c hc => alpha_inv (hg c hc)).trans (List.map_id g)

/-! ### `Encode` -/

/-- The symbols of the trailing block; none for an empty one (R170). -/
def lastBlockSymbols (A : Alphabet) (B : List Byte) : List Byte :=
  encodeBlock A (lastChunk 8 B) (partialLen (B.length % 8))

/-- `Encode(B)` is the symbols of the full blocks, then those of the trailing block (R170). -/
theorem encodeBuffer_eq (A : Alphabet) (B : List Byte) :
    encodeBuffer A B = fullBlockSymbols A B ++ lastBlockSymbols A B := by
  have hlast : (encodeBuffer A B).drop (11 * (B.length / 8)) = lastBlockSymbols A B := by
    rw [encodeBuffer, List.drop_left' (by simp [List.length_flatMap, Nat.mul_comm])]
    split_ifs with hr
    · rfl
    · rw [lastBlockSymbols, not_not.1 hr]
      rfl
  rw [← encodeBuffer_take, ← hlast, List.take_append_drop]

/-- The partial lengths of `KTAB`, as numbers: enough digits for the bytes, at most 10, and `KINV`
finds the byte count again (R51, R54). -/
theorem partialLen_spec : ∀ r < 8, 2 ^ (8 * r) ≤ 60 ^ partialLen r ∧ partialLen r < 11 ∧
    kinv (partialLen r) = some ⟨true, BitVec.ofNat 4 r⟩ := by
  decide

/-- The number of symbols of `Encode(B)` (R176). -/
theorem encodeBuffer_length (A : Alphabet) (B : List Byte) :
    (encodeBuffer A B).length = encodedLength B.length := by
  simp [encodeBuffer_eq, lastBlockSymbols, encodedLength]

/-- An encoded length modulo 11 is the length of the trailing group. -/
theorem encodedLength_div_mod (L : Nat) :
    encodedLength L / 11 = L / 8 ∧ encodedLength L % 11 = partialLen (L % 8) := by
  obtain ⟨-, hlt, -⟩ := partialLen_spec (L % 8) (Nat.mod_lt _ (by decide))
  rw [encodedLength]
  omega

/-- The trailing count of an encoded length gives the trailing bytes back (R54, R176). -/
theorem kinv_encodedLength (L : Nat) :
    kinv (encodedLength L % 11) = some ⟨true, BitVec.ofNat 4 (L % 8)⟩ := by
  obtain ⟨-, -, hkinv⟩ := partialLen_spec (L % 8) (Nat.mod_lt _ (by decide))
  rw [(encodedLength_div_mod L).2, hkinv]

/-- The groups of `Encode(B)` are the encoded blocks of `B`. -/
theorem chunks_encodeBuffer (A : Alphabet) (B : List Byte) :
    fullChunks 11 (encodeBuffer A B) = (fullChunks 8 B).map (fun b => encodeBlock A b 11) ∧
      lastChunk 11 (encodeBuffer A B) = lastBlockSymbols A B := by
  obtain ⟨-, hlt, -⟩ := partialLen_spec (B.length % 8) (Nat.mod_lt _ (by decide))
  rw [encodeBuffer_eq, fullBlockSymbols, List.flatMap_def]
  refine chunks_flatten_append (by decide) (fun c hc => ?_) (by simpa [lastBlockSymbols] using hlt)
  obtain ⟨b, -, rfl⟩ := List.mem_map.1 hc
  exact encodeBlock_length A b 11

/-- Every symbol of `Encode(B)` is one of some block. -/
theorem mem_encodeBuffer {A : Alphabet} {B : List Byte} {c : Byte} (h : c ∈ encodeBuffer A B) :
    ∃ block K, c ∈ encodeBlock A block K := by
  rw [encodeBuffer_eq] at h
  obtain h | h := List.mem_append.1 h
  · obtain ⟨block, -, hc⟩ := List.mem_flatMap.1 h
    exact ⟨block, 11, hc⟩
  · exact ⟨_, _, h⟩

theorem valid_of_mem_encodeBuffer {A : Alphabet} {B : List Byte} {c : Byte}
    (h : c ∈ encodeBuffer A B) : (inv A c).valid = true := by
  obtain ⟨block, K, hc⟩ := mem_encodeBuffer h
  exact valid_of_mem_encodeBlock hc

/-! ### `Decode` -/

/-- The bytes of the full groups of a character sequence, 8 each (R171). -/
def fullGroupBytes (A : Alphabet) (S : List Byte) : List Byte :=
  (fullChunks 11 S).flatMap fun g => bytesOf (charsValue A g) 8

@[simp] theorem fullGroupBytes_length (A : Alphabet) (S : List Byte) :
    (fullGroupBytes A S).length = 8 * (S.length / 11) := by
  simp [fullGroupBytes, List.length_flatMap, Nat.mul_comm]

/-- Every full group is below `2^64` (R171). -/
def FullGroupsInRange (A : Alphabet) (S : List Byte) : Prop :=
  ∀ g ∈ fullChunks 11 S, charsValue A g < 2 ^ 64

/-- Steps 3 to 5 of `Decode` where every value fits the bytes of its group (R171). -/
theorem decodeGroups_ok {A : Alphabet} {gs : List (List Byte × Nat)}
    (h : ∀ x ∈ gs, charsValue A x.1 < 2 ^ (8 * x.2)) :
    decodeGroups A gs = .ok (gs.flatMap fun x => bytesOf (charsValue A x.1) x.2) := by
  induction gs with
  | nil => rfl
  | cons x gs ih =>
    have hx := h x List.mem_cons_self
    rw [decodeGroups, if_neg (by omega), ih fun y hy => h y (List.mem_cons_of_mem _ hy),
      List.flatMap_cons]

/-- Steps 3 to 5 of `Decode` where some value does not fit (R171). -/
theorem decodeGroups_outOfRange {A : Alphabet} {gs : List (List Byte × Nat)}
    (h : ∃ x ∈ gs, 2 ^ (8 * x.2) ≤ charsValue A x.1) :
    decodeGroups A gs = .error .valueOutOfRange := by
  induction gs with
  | nil => simp at h
  | cons x gs ih =>
    rw [decodeGroups]
    split_ifs with hx
    · rfl
    · obtain ⟨y, hy, hv⟩ := h
      obtain rfl | hy := List.mem_cons.1 hy
      · exact absurd hv hx
      · rw [ih ⟨y, hy, hv⟩]

/-- An empty group of 0 bytes adds nothing. -/
theorem decodeGroups_append_empty (A : Alphabet) (gs : List (List Byte × Nat)) :
    decodeGroups A (gs ++ [([], 0)]) = decodeGroups A gs := by
  induction gs with
  | nil => rfl
  | cons x gs ih => rw [List.cons_append, decodeGroups, decodeGroups, ih]

/-- A character sequence is all symbols, or has a leftmost character outside `ALPHABET`. -/
theorem all_valid_or_first_invalid (A : Alphabet) (S : List Byte) :
    (∀ c ∈ S, (inv A c).valid = true) ∨
      ∃ pre c post, S = pre ++ c :: post ∧ (∀ x ∈ pre, (inv A x).valid = true) ∧
        (inv A c).valid = false := by
  cases hfind : S.find? fun c => !(inv A c).valid with
  | none => exact .inl fun c hc => by simpa using List.find?_eq_none.1 hfind c hc
  | some c =>
    obtain ⟨hc, pre, post, rfl, hpre⟩ := List.find?_eq_some_iff_append.1 hfind
    exact .inr ⟨pre, c, post, rfl, by simpa using hpre, by simpa using hc⟩

theorem find?_invalid_eq_none {A : Alphabet} {S : List Byte}
    (hS : ∀ c ∈ S, (inv A c).valid = true) : S.find? (fun c => !(inv A c).valid) = none :=
  List.find?_eq_none.2 fun x hx => by simp [hS x hx]

/-- The leftmost character outside `ALPHABET` decides (R178). -/
theorem decodeBuffer_invalidCharacter {A : Alphabet} {pre : List Byte} {c : Byte}
    (hpre : ∀ x ∈ pre, (inv A x).valid = true) (hc : (inv A c).valid = false) (post : List Byte) :
    decodeBuffer A (pre ++ c :: post) = .error (.invalidCharacter c) := by
  rw [decodeBuffer, List.find?_append, find?_invalid_eq_none hpre, Option.none_or,
    List.find?_cons_of_pos (by simp [hc])]

/-- Every remainder modulo 11 has an entry in `KINV` (R54, R59). -/
theorem exists_kinv_mod (L : Nat) : ∃ e, kinv (L % 11) = some e :=
  Option.ne_none_iff_exists'.1 (mt (kinv_eq_none_iff _).1 (by omega))

section
variable {A : Alphabet} {S : List Byte} (hS : ∀ c ∈ S, (inv A c).valid = true)
include hS

/-- Without an invalid character a trailing count that no block has is the error (R178). -/
theorem decodeBuffer_invalidLength {e : KinvEntry} (he : kinv (S.length % 11) = some e)
    (hv : e.valid = false) : decodeBuffer A S = .error .invalidLength := by
  rw [decodeBuffer, find?_invalid_eq_none hS]
  simp [he, hv]

section
variable {n : BitVec 4} (hn : kinv (S.length % 11) = some ⟨true, n⟩)
include hn

/-- With good characters and length `Decode` takes the groups with the byte counts of their blocks; a
trailing group of no symbols counts as 0 bytes, which changes nothing. -/
theorem decodeBuffer_eq_decodeGroups : decodeBuffer A S = decodeGroups A
    ((fullChunks 11 S).map (fun g => (g, 8)) ++ [(lastChunk 11 S, n.toNat)]) := by
  rw [decodeBuffer, find?_invalid_eq_none hS]
  simp only [hn, Bool.true_eq_false, if_false]
  by_cases h0 : S.length % 11 = 0
  · obtain rfl : 0#4 = n := congrArg KinvEntry.n (Option.some.inj ((congrArg kinv h0).symm.trans hn))
    have hlast : lastChunk 11 S = [] := List.eq_nil_of_length_eq_zero (by simpa using h0)
    rw [if_neg (not_not.2 h0), List.append_nil, hlast]
    exact (decodeGroups_append_empty A _).symm
  · rw [if_pos h0]
    rfl

/-- `Decode` where every value fits: the bytes of the full groups, then those of the trailing one. -/
theorem decodeBuffer_ok (hfull : FullGroupsInRange A S)
    (hlast : charsValue A (lastChunk 11 S) < 2 ^ (8 * n.toNat)) :
    decodeBuffer A S =
      .ok (fullGroupBytes A S ++ bytesOf (charsValue A (lastChunk 11 S)) n.toNat) := by
  rw [decodeBuffer_eq_decodeGroups hS hn, decodeGroups_ok, List.flatMap_append, List.flatMap_map,
    List.flatMap_singleton, fullGroupBytes]
  intro x hx
  obtain hx | hx := List.mem_append.1 hx
  · obtain ⟨g, hg, rfl⟩ := List.mem_map.1 hx
    exact hfull g hg
  · obtain rfl := List.mem_singleton.1 hx
    exact hlast

/-- `Decode` where some value does not fit. -/
theorem decodeBuffer_outOfRange (h : ¬ (FullGroupsInRange A S ∧
      charsValue A (lastChunk 11 S) < 2 ^ (8 * n.toNat))) :
    decodeBuffer A S = .error .valueOutOfRange := by
  rw [decodeBuffer_eq_decodeGroups hS hn]
  refine decodeGroups_outOfRange ?_
  by_cases hfull : FullGroupsInRange A S
  · exact ⟨(lastChunk 11 S, n.toNat), by simp, not_lt.1 fun hlast => h ⟨hfull, hlast⟩⟩
  · simp only [FullGroupsInRange, not_forall] at hfull
    obtain ⟨g, hg, hv⟩ := hfull
    exact ⟨(g, 8), List.mem_append_left _ (List.mem_map_of_mem hg), not_lt.1 hv⟩

end

end

/-- What a sequence that decodes is: symbols, in groups that blocks have, each in range; and what it
decodes to (R171). -/
theorem decodeBuffer_eq_ok {A : Alphabet} {S B : List Byte} (h : decodeBuffer A S = .ok B) :
    (∀ c ∈ S, (inv A c).valid = true) ∧ ∃ n : BitVec 4, kinv (S.length % 11) = some ⟨true, n⟩ ∧
      FullGroupsInRange A S ∧ charsValue A (lastChunk 11 S) < 2 ^ (8 * n.toNat) ∧
      B = fullGroupBytes A S ++ bytesOf (charsValue A (lastChunk 11 S)) n.toNat := by
  obtain hS | ⟨pre, c, post, rfl, hpre, hc⟩ := all_valid_or_first_invalid A S
  · obtain ⟨⟨valid, n⟩, he⟩ := exists_kinv_mod S.length
    cases valid with
    | false =>
      rw [decodeBuffer_invalidLength hS he rfl] at h
      cases h
    | true =>
      by_cases hrange : FullGroupsInRange A S ∧ charsValue A (lastChunk 11 S) < 2 ^ (8 * n.toNat)
      · obtain ⟨hfull, hlast⟩ := hrange
        rw [decodeBuffer_ok hS he hfull hlast] at h
        exact ⟨hS, n, he, hfull, hlast, (Except.ok.inj h).symm⟩
      · rw [decodeBuffer_outOfRange hS he hrange] at h
        cases h
  · rw [decodeBuffer_invalidCharacter hpre hc] at h
    cases h

/-! ### `Encode` and `Decode` are inverse -/

/-- The value of an encoded full block is that of its bytes. -/
theorem charsValue_encodeBlock_full (A : Alphabet) {B b : List Byte} (hb : b ∈ fullChunks 8 B) :
    charsValue A (encodeBlock A b 11) = blockValue b :=
  charsValue_encodeBlock A (by rw [length_of_mem_fullChunks hb]; decide)

/-- The value of the encoded trailing block is that of its bytes. -/
theorem charsValue_lastBlockSymbols (A : Alphabet) (B : List Byte) :
    charsValue A (lastBlockSymbols A B) = blockValue (lastChunk 8 B) := by
  obtain ⟨hfit, -, -⟩ := partialLen_spec (B.length % 8) (Nat.mod_lt _ (by decide))
  exact charsValue_encodeBlock A (by rwa [lastChunk_length])

theorem fullGroupsInRange_encodeBuffer (A : Alphabet) (B : List Byte) :
    FullGroupsInRange A (encodeBuffer A B) := by
  intro g hg
  rw [(chunks_encodeBuffer A B).1] at hg
  obtain ⟨b, hb, rfl⟩ := List.mem_map.1 hg
  have hlt := blockValue_lt b
  rwa [length_of_mem_fullChunks hb, ← charsValue_encodeBlock_full A hb] at hlt

/-- The full groups of `Encode(B)` give the full blocks of `B`. -/
theorem fullGroupBytes_encodeBuffer (A : Alphabet) (B : List Byte) :
    fullGroupBytes A (encodeBuffer A B) = (fullChunks 8 B).flatten := by
  have hblock : ∀ b ∈ fullChunks 8 B, bytesOf (charsValue A (encodeBlock A b 11)) 8 = b := by
    intro b hb
    have hbytes := bytesOf_blockValue b
    rwa [length_of_mem_fullChunks hb, ← charsValue_encodeBlock_full A hb] at hbytes
  rw [fullGroupBytes, (chunks_encodeBuffer A B).1, List.flatMap_map, List.flatMap_def,
    List.map_congr_left hblock, List.map_id']

/-- Settles O50: the groups of `Encode(B)` are the encoded blocks of `B`, and each is read back. -/
theorem decodeInvertsEncode : Obligations.DecodeInvertsEncode := by
  intro A B
  have hkinv := (congrArg kinv (congrArg (· % 11) (encodeBuffer_length A B))).trans
    (kinv_encodedLength B.length)
  have hcount : (BitVec.ofNat 4 (B.length % 8)).toNat = (lastChunk 8 B).length := by
    rw [BitVec.toNat_ofNat, lastChunk_length]
    omega
  have hlast : charsValue A (lastChunk 11 (encodeBuffer A B)) = blockValue (lastChunk 8 B) := by
    rw [(chunks_encodeBuffer A B).2, charsValue_lastBlockSymbols]
  rw [decodeBuffer_ok (fun _ => valid_of_mem_encodeBuffer) hkinv (fullGroupsInRange_encodeBuffer A B)
      (by rw [hlast, hcount]; exact blockValue_lt _),
    fullGroupBytes_encodeBuffer, hlast, hcount, bytesOf_blockValue,
    flatten_fullChunks_append (by decide)]

/-- The blocks of what a sequence of good characters, length and values decodes to, encoded, are its
groups. -/
theorem encodeBuffer_decoded {A : Alphabet} {S : List Byte} {n : BitVec 4}
    (hS : ∀ c ∈ S, (inv A c).valid = true) (hn : kinv (S.length % 11) = some ⟨true, n⟩)
    (hfull : FullGroupsInRange A S) (hlast : charsValue A (lastChunk 11 S) < 2 ^ (8 * n.toNat)) :
    encodeBuffer A (fullGroupBytes A S ++ bytesOf (charsValue A (lastChunk 11 S)) n.toNat) = S := by
  have hn7 := kinv_n_le_seven hn
  obtain ⟨hblocks, hrest⟩ := chunks_flatten_append (k := 8) (by decide)
    (cs := (fullChunks 11 S).map fun g => bytesOf (charsValue A g) 8)
    (r := bytesOf (charsValue A (lastChunk 11 S)) n.toNat)
    (by simp) (by rw [bytesOf_length]; exact Nat.lt_succ_of_le hn7)
  rw [← List.flatMap_def, ← fullGroupBytes] at hblocks hrest
  have hlen : partialLen
      ((fullGroupBytes A S ++ bytesOf (charsValue A (lastChunk 11 S)) n.toNat).length % 8) =
        (lastChunk 11 S).length := by
    rw [← lastChunk_length, hrest, bytesOf_length, partialLen_of_ktab (ktab_of_kinv_valid hn rfl),
      BitVec.toNat_ofNat, lastChunk_length]
    omega
  have hgroup : ∀ g ∈ fullChunks 11 S, encodeBlock A (bytesOf (charsValue A g) 8) 11 = g := by
    intro g hg
    have := encodeBlock_bytesOf (n := 8) (fun c hc => hS c (mem_of_mem_fullChunks hg hc))
      (hfull g hg)
    rwa [length_of_mem_fullChunks hg] at this
  rw [encodeBuffer_eq, fullBlockSymbols, hblocks, List.flatMap_map, List.flatMap_def,
    List.map_congr_left hgroup, List.map_id', lastBlockSymbols, hlen, hrest,
    encodeBlock_bytesOf (fun c hc => hS c (mem_of_mem_lastChunk hc)) hlast,
    flatten_fullChunks_append (by decide)]

/-- Settles O56: what decodes is the encoding of what it decodes to, group by group. -/
theorem decodeAcceptsOnlyEncodings : Obligations.DecodeAcceptsOnlyEncodings := by
  refine fun A S B => ⟨fun h => ?_, fun h => h ▸ decodeInvertsEncode A B⟩
  obtain ⟨hS, n, hn, hfull, hlast, rfl⟩ := decodeBuffer_eq_ok h
  exact (encodeBuffer_decoded hS hn hfull hlast).symm

/-- Settles O51: `Decode` gives the bytes back, so they are determined. -/
theorem encodeIsInjective : Obligations.EncodeIsInjective := by
  intro A B1 B2 hne h
  have hB1 := decodeInvertsEncode A B1
  rw [h, decodeInvertsEncode A B2] at hB1
  exact hne (Except.ok.inj hB1).symm

/-- The remainders modulo 11 of the encoded lengths. -/
theorem exists_partialLen_iff : ∀ r < 11, (∃ m < 8, partialLen m = r) ↔
    r ∈ [0, 2, 3, 5, 6, 7, 9, 10] := by
  decide

/-- A length is an encoded length exactly if its trailing group is that of some block (R176). -/
theorem exists_encodedLength_iff (L : Nat) :
    (∃ n, encodedLength n = L) ↔ L % 11 ∈ [0, 2, 3, 5, 6, 7, 9, 10] := by
  rw [← exists_partialLen_iff _ (Nat.mod_lt L (by decide))]
  constructor
  · rintro ⟨n, rfl⟩
    exact ⟨n % 8, Nat.mod_lt n (by decide), (encodedLength_div_mod n).2.symm⟩
  · rintro ⟨m, hm, hr⟩
    refine ⟨8 * (L / 11) + m, ?_⟩
    rw [encodedLength, Nat.mul_add_mod, Nat.mod_eq_of_lt hm, hr]
    omega

theorem encodedLength_injective : Function.Injective encodedLength := by
  intro m n h
  obtain ⟨hqm, -⟩ := encodedLength_div_mod m
  obtain ⟨hqn, -⟩ := encodedLength_div_mod n
  have hr : BitVec.ofNat 4 (m % 8) = BitVec.ofNat 4 (n % 8) := by
    have hkinv := (kinv_encodedLength m).symm.trans (h ▸ kinv_encodedLength n)
    exact congrArg KinvEntry.n (Option.some.inj hkinv)
  have hr' := congrArg BitVec.toNat hr
  rw [BitVec.toNat_ofNat, BitVec.toNat_ofNat] at hr'
  rw [h] at hqm
  omega

/-- Settles O52: both lengths counted by blocks and groups; `KTAB` and `KINV` for the rest. -/
theorem lengthLaw : Obligations.LengthLaw := by
  refine ⟨encodeBuffer_length, fun A S B h => ?_, exists_encodedLength_iff,
    fun _ _ h => encodedLength_injective h⟩
  obtain ⟨-, n, hn, -, -, rfl⟩ := decodeBuffer_eq_ok h
  exact ⟨n, hn, by simp⟩

/-- Settles O53: every symbol is read from `ALPHA`. -/
theorem encodeStaysInTheAlphabet : Obligations.EncodeStaysInTheAlphabet := by
  intro A B c h
  obtain ⟨block, K, hc⟩ := mem_encodeBuffer h
  obtain ⟨d, -, rfl⟩ := List.mem_map.1 hc
  exact alpha_mem A d

/-- Settles O54: the three ranks, one after the other, and success. -/
theorem decodeRejectsByRank : Obligations.DecodeRejectsByRank := by
  refine fun A => ⟨fun pre post c hpre hc => decodeBuffer_invalidCharacter hpre hc post,
    fun S hS hlen => ?_, fun S n hS hn => ⟨fun hbad => ?_, fun hfull hlast =>
      ⟨_, decodeBuffer_ok hS hn hfull hlast⟩⟩⟩
  · obtain ⟨e, he⟩ := exists_kinv_mod S.length
    exact decodeBuffer_invalidLength hS he ((kinv_entry he).1.2 (by simpa using hlen))
  · refine decodeBuffer_outOfRange hS hn fun ⟨hfull, hlast⟩ => ?_
    obtain ⟨g, hg, hv⟩ | hv := hbad
    · exact hv.not_gt (hfull g hg)
    · exact hv.not_gt hlast

/-- Settles O55: no block and no group; after reset the two finish commands report success. -/
theorem emptyInputGivesEmptyOutput : Obligations.EmptyInputGivesEmptyOutput :=
  ⟨fun _ => ⟨rfl, rfl⟩, rfl, rfl⟩

end Sys2Proof.Machine
end

section
/-! ## The streams on the machine -/

namespace Sys2Proof.Machine

/-! ### Whole runs -/

/-- A command word only adds responses at the end of the channel (R233). -/
theorem runWord_rsp {A : Alphabet} {w : Word16} {s t : State}
    (h : runWord (execWith A) w s = .next t) : t.rsp = s.rsp ++ newResponses s t := by
  suffices hgrows : ∃ rs, t.rsp = s.rsp ++ rs by
    obtain ⟨rs, hrs⟩ := hgrows
    rw [newResponses_append s t rs hrs, hrs]
  obtain ⟨i, -, hi⟩ | ⟨e, -, rfl⟩ := runWord_cases h
  · obtain ⟨-, rfl⟩ | ⟨-, rfl⟩ | ⟨-, rfl⟩ | ⟨-, dig, u, -, rfl⟩ | ⟨-, u, -, rfl⟩ := execWith_cases hi
    · exact ⟨[], (List.append_nil _).symm⟩
    · exact ⟨[], (List.append_nil _).symm⟩
    · exact ⟨_, rfl⟩
    · exact ⟨u.rsp, rfl⟩
    · exact ⟨u.rsp, rfl⟩
  · exact ⟨_, rfl⟩

/-- All the words that a run answers, in order. -/
def answers (A : Alphabet) (ws : List Word16) (s : State) : List Word16 :=
  (trace (execWith A) ws s).flatMap Prod.snd

@[simp] theorem answers_nil (A : Alphabet) (s : State) : answers A [] s = [] := rfl

theorem answers_cons {A : Alphabet} {w : Word16} {s t : State} (ws : List Word16)
    (h : runWord (execWith A) w s = .next t) :
    answers A (w :: ws) s = newResponses s t ++ answers A ws t := by
  rw [answers, trace_cons_next ws h, List.flatMap_cons, answers]

/-- A legal state runs every sequence of words to a legal state, the answers added to its channel. -/
theorem runWords_legal {A : Alphabet} {s : State} (hs : Inv A s) (ws : List Word16) :
    ∃ t, runWords (execWith A) ws s = .next t ∧ Inv A t ∧ t.rsp = s.rsp ++ answers A ws s := by
  induction ws generalizing s with
  | nil => exact ⟨s, rfl, hs, (List.append_nil _).symm⟩
  | cons w ws ih =>
    obtain ⟨u, hu⟩ := runWord_answers hs w
    obtain ⟨t, ht, htInv, hrsp⟩ := ih (runWord_keeps_inv hs hu)
    refine ⟨t, (runWords_cons_next ws hu).trans ht, htInv, ?_⟩
    rw [hrsp, runWord_rsp hu, List.append_assoc, ← answers_cons ws hu]

/-- Where every command is chosen, the responses chosen are all the answers. -/
theorem responsesOf_trace_eq_answers {A : Alphabet} {p : Word16 → Bool} {s : State} (hs : Inv A s)
    {ws : List Word16} (hp : ∀ w ∈ ws, p w = true) :
    responsesOf p (trace (execWith A) ws s) = answers A ws s := by
  induction ws generalizing s with
  | nil => rfl
  | cons w ws ih =>
    obtain ⟨u, hu⟩ := runWord_answers hs w
    rw [trace_cons_next ws hu, responsesOf_cons, if_pos (hp w List.mem_cons_self),
      ih (runWord_keeps_inv hs hu) fun x hx => hp x (List.mem_cons_of_mem w hx), answers_cons ws hu]

/-- What an owner's commands leave in its part does not depend on the commands between them. -/
theorem OwnedBy.part_filter {A : Alphabet} {p : Word16 → Bool} {part : State → State}
    (hp : OwnedBy A p part) (ws : List Word16) {s s' t t' : State} (hs : Inv A s) (hs' : Inv A s')
    (hpart : part s = part s') (h : runWords (execWith A) ws s = .next t)
    (h' : runWords (execWith A) (ws.filter p) s' = .next t') : part t = part t' := by
  induction ws generalizing s s' with
  | nil =>
    obtain rfl := Host.Outcome.next.inj h
    obtain rfl := Host.Outcome.next.inj h'
    exact hpart
  | cons w ws ih =>
    obtain ⟨u, hu⟩ := runWord_answers hs w
    rw [runWords_cons_next ws hu] at h
    cases hw : p w with
    | false =>
      rw [List.filter_cons_of_neg (by simp [hw])] at h'
      exact ih (runWord_keeps_inv hs hu) hs' ((hp.kept hw hu).trans hpart) h h'
    | true =>
      obtain ⟨u', hu'⟩ := runWord_answers hs' w
      rw [List.filter_cons_of_pos hw, runWords_cons_next _ hu'] at h'
      exact ih (runWord_keeps_inv hs hu) (runWord_keeps_inv hs' hu')
        (hp.determined hw hpart hu hu').2 h h'

/-- A stream of an owner's commands, with others interleaved, leaves the part and gives the responses
of the stream alone (R172, R173). -/
theorem OwnedBy.interleaved {A : Alphabet} {p : Word16 → Bool} {part : State → State}
    (hp : OwnedBy A p part) {ws stream : List Word16} {s u : State} {out : List Word16}
    (hs : Inv A s) (hws : ws.filter p = stream) (hrun : runWords (execWith A) stream s = .next u)
    (hout : u.rsp = s.rsp ++ out) :
    ∃ t, runWords (execWith A) ws s = .next t ∧ part t = part u ∧
      responsesOf p (trace (execWith A) ws s) = out := by
  subst hws
  obtain ⟨t, ht, -, -⟩ := runWords_legal hs ws
  obtain ⟨u', hu', -, hrsp⟩ := runWords_legal hs (ws.filter p)
  obtain rfl := Host.Outcome.next.inj (hrun.symm.trans hu')
  refine ⟨t, ht, hp.part_filter ws hs hs rfl ht hrun, ?_⟩
  rw [hp.responsesOf_filter ws hs hs rfl,
    responsesOf_trace_eq_answers hs fun w hw => (List.mem_filter.1 hw).2]
  exact List.append_cancel_left (hrsp.symm.trans hout)

/-! ### An encode stream -/

/-- `ENCF` closes the stream: the symbols of the trailing block, then `FIN(0, 0)` (R131). -/
theorem EncodedSoFar.encodeFinish {A : Alphabet} {B : List Byte} {s t : State}
    (h : EncodedSoFar A B s t) :
    ∃ u, encodeFinish A t = .next u ∧
      u.rsp = s.rsp ++ ((encodeBuffer A B).map (fun c => responseWord (.sym c)) ++ [0x3000#16]) := by
  have hnb := h.nb
  have hrsp := h.rsp
  by_cases h0 : t.nb = 0#4
  · have hlast : lastBlockSymbols A B = [] := by
      rw [lastBlockSymbols, ← hnb, h0]
      rfl
    refine ⟨_, encodeFinish_empty A t h0, ?_⟩
    simp [encodeBuffer_eq, hlast, hrsp, responseWord]
  · obtain ⟨K, hK, -⟩ := kinv_ktab t.nb.toNat (by omega)
    have hlast : (digitsOf t.eacc.toNat K.toNat).map (alpha A) = lastBlockSymbols A B := by
      rw [lastBlockSymbols, ← hnb, partialLen_of_ktab hK, h.eacc, encodeBlock]
    refine ⟨_, encodeFinish_partial A t K h0 hK, ?_⟩
    rw [emit_rsp, clearEncodeSide_emitGroup A (ktab_le_eleven hK), encodeBuffer_eq, ← hlast, hrsp]
    simp [responseWord]

/-- The commands of an encode stream alone (R172). -/
theorem runWords_encodeStream (A : Alphabet) (B : List Byte) {s : State} (hs : Inv A s)
    (h0 : EncodeIdle s) :
    ∃ u, runWords (execWith A) (words (encodeStream B)) s = .next u ∧ u.nb = 0#4 ∧ u.eacc = 0#64 ∧
      u.rsp = s.rsp ++ ((encodeBuffer A B).map (fun c => responseWord (.sym c)) ++ [0x3000#16]) := by
  obtain ⟨t, hrun, ht⟩ := runWords_encodeBytes A B hs h0
  obtain ⟨u, hu, hrsp⟩ := ht.encodeFinish
  obtain ⟨t', hrun', htInv, -⟩ := runWords_legal hs (words (B.map .encb))
  obtain rfl := Host.Outcome.next.inj (hrun.symm.trans hrun')
  obtain ⟨hnb, heacc⟩ := encodeFinish_clear ((inv_iff A t).1 htInv).1 hu
  exact ⟨u, runWords_words_append_singleton hrun hu, hnb, heacc, hrsp⟩

/-- Settles O48: the stream alone by its commands, and the encode side is owned by them. -/
theorem encodeStreamComputesEncode : Obligations.EncodeStreamComputesEncode := by
  intro A B ws s hs h0 hws
  obtain ⟨u, hrun, hnb, heacc, hrsp⟩ := runWords_encodeStream A B hs h0
  obtain ⟨t, ht, hpart, hout⟩ := (encodeSide_owned A).interleaved hs hws hrun hrsp
  exact ⟨t, ht, (congrArg State.nb hpart).trans hnb, (congrArg State.eacc hpart).trans heacc, hout⟩

/-! ### A decode stream: the provisional bytes -/

/-- A stream without a defect so far: symbols only, and no full group out of range (R173). -/
def SoundSoFar (A : Alphabet) (S : List Byte) : Prop :=
  (∀ c ∈ S, (inv A c).valid = true) ∧ FullGroupsInRange A S

theorem groupSound_iff (A : Alphabet) (g : List Byte) : groupSound A g = true ↔
    (∀ c ∈ g, (inv A c).valid = true) ∧ charsValue A g < 2 ^ 64 := by
  simp [groupSound]

theorem provisionalBytes_eq (A : Alphabet) (S : List Byte) : provisionalBytes A S =
    ((fullChunks 11 S).takeWhile (groupSound A)).flatMap fun g => bytesOf (charsValue A g) 8 := rfl

/-- A stream without a defect keeps all of its provisional bytes. -/
theorem SoundSoFar.provisionalBytes_eq {A : Alphabet} {S : List Byte} (h : SoundSoFar A S) :
    provisionalBytes A S = fullGroupBytes A S := by
  obtain ⟨hS, hfull⟩ := h
  have hall : (fullChunks 11 S).takeWhile (groupSound A) = fullChunks 11 S :=
    List.takeWhile_eq_self_iff.2 fun g hg =>
      (groupSound_iff A g).2 ⟨fun c hc => hS c (mem_of_mem_fullChunks hg hc), hfull g hg⟩
  rw [Machine.provisionalBytes_eq, hall, fullGroupBytes]

/-- Where some element fails `p`, the last one is not taken. -/
theorem takeWhile_append_singleton_of_not_all {α : Type} {p : α → Bool} {l : List α} {x : α}
    (h : ¬ ∀ y ∈ l ++ [x], p y = true) : (l ++ [x]).takeWhile p = l.takeWhile p := by
  induction l with
  | nil => simpa using h
  | cons y l ih =>
    cases hy : p y with
    | false => simp [hy]
    | true =>
      have hrest : ¬ ∀ z ∈ l ++ [x], p z = true := fun hall => h (by simpa [hy] using hall)
      rw [List.cons_append, List.takeWhile_cons_of_pos hy, List.takeWhile_cons_of_pos hy, ih hrest]

/-- From a stream's first defect on, no more provisional bytes come (R173 (e), R209). -/
theorem provisionalBytes_append_of_not_sound {A : Alphabet} {S : List Byte} {c : Byte}
    (h : ¬ SoundSoFar A (S ++ [c])) : provisionalBytes A (S ++ [c]) = provisionalBytes A S := by
  rw [provisionalBytes_eq, provisionalBytes_eq]
  by_cases hfull : S.length % 11 + 1 = 11
  · have hdefect : ¬ ∀ g ∈ fullChunks 11 (S ++ [c]), groupSound A g = true := by
      refine fun hall => h ⟨fun x hx => ?_, fun g hg => ((groupSound_iff A g).1 (hall g hg)).2⟩
      rw [← flatten_fullChunks_append (k := 11) (by decide) (S ++ [c]),
        lastChunk_append_full c hfull, List.append_nil] at hx
      obtain ⟨g, hg, hxg⟩ := List.mem_flatten.1 hx
      exact ((groupSound_iff A g).1 (hall g hg)).1 x hxg
    rw [fullChunks_append_full c hfull] at hdefect ⊢
    rw [takeWhile_append_singleton_of_not_all hdefect]
  · rw [fullChunks_append_open c (by decide) hfull]

/-- The provisional bytes are those of the characters before the first invalid one. -/
theorem provisionalBytes_invalid {A : Alphabet} (pre post : List Byte) {c : Byte}
    (hc : (inv A c).valid = false) :
    provisionalBytes A (pre ++ c :: post) = provisionalBytes A pre := by
  have hunsound : ∀ rest, ¬ SoundSoFar A (pre ++ c :: rest) := fun rest ⟨hS, _⟩ => by
    simp [hS c (by simp)] at hc
  induction post using List.reverseRecOn with
  | nil => exact provisionalBytes_append_of_not_sound (hunsound [])
  | append_singleton post x ih =>
    have hsplit : pre ++ c :: (post ++ [x]) = pre ++ c :: post ++ [x] := by simp
    rw [hsplit, provisionalBytes_append_of_not_sound (hsplit ▸ hunsound _), ih]

/-! ### A decode stream: the symbols -/

/-- The response words of bytes. -/
def byteWords (bs : List Byte) : List Word16 := bs.map fun b => responseWord (.byte b)

section
variable {A : Alphabet} {S : List Byte} {t : State}

/-- A stream of symbols is without a defect exactly while the block is in the clean condition. -/
theorem DecodedSoFar.sound_iff (h : DecodedSoFar A S t) (hS : ∀ c ∈ S, (inv A c).valid = true) :
    SoundSoFar A S ↔ t.err = 0#3 := by
  have hclean : t.err = 0#3 ↔ ¬ t.err = 3#3 := by obtain h0 | h3 := h.err <;> simp [*]
  rw [hclean, h.drains, SoundSoFar, and_iff_right hS]
  simp [FullGroupsInRange]

/-- `Horner` over the open group and one more symbol is the value of both (R114). -/
theorem DecodedSoFar.horner_toNat (h : DecodedSoFar A S t) (h0 : t.err = 0#3) (c : Byte) :
    (horner t.dacc (inv A c).value).toNat = charsValue A (lastChunk 11 S ++ [c]) := by
  have hlt := charsValue_lt A (lastChunk 11 S)
  rw [← h.dacc h0, lastChunk_length] at hlt
  have hroom : t.dacc.toNat < 60 ^ 10 := hlt.trans_le (Nat.pow_le_pow_right (by decide) (by omega))
  rw [horner_toNat_exact _ _ hroom, h.dacc h0, charsValue_append_singleton]

/-- `DECS` of a symbol answers the bytes by which the provisional output grows (R141, R173). -/
theorem DecodedSoFar.decodeChar_rsp (h : DecodedSoFar A S t) {c : Byte} {u : State}
    (hS : ∀ x ∈ S ++ [c], (inv A x).valid = true) (hu : DecodedSoFar A (S ++ [c]) u)
    (hstep : Machine.decodeChar A c t = .next u) :
    ∃ bs, u.rsp = t.rsp ++ byteWords bs ∧
      provisionalBytes A (S ++ [c]) = provisionalBytes A S ++ bs := by
  have hc := hS c (by simp)
  have hS' : ∀ x ∈ S, (inv A x).valid = true := fun x hx => hS x (List.mem_append_left _ hx)
  have hdrained (h3 : u.err = 3#3) : provisionalBytes A (S ++ [c]) = provisionalBytes A S ++ [] := by
    have hunsound : ¬ SoundSoFar A (S ++ [c]) := fun hsound => by
      simp [(hu.sound_iff hS).1 hsound] at h3
    rw [provisionalBytes_append_of_not_sound hunsound, List.append_nil]
  obtain h0 | h3 := h.err
  · rw [decodeChar_clean A c t (by simp [h0]) (by simp [h0]) hc] at hstep
    obtain rfl := Host.Outcome.next.inj hstep
    have hns := h.ns
    obtain ⟨hopen, heq⟩ | ⟨hfull, -, heq⟩ | ⟨-, -, heq⟩ := acceptDigit_cases (inv A c).value t h0
    · refine ⟨[], by rw [heq]; exact (List.append_nil _).symm, ?_⟩
      rw [provisionalBytes_eq, fullChunks_append_open c (by decide) (by omega), List.append_nil]
      rfl
    · refine ⟨bytesOf (charsValue A (lastChunk 11 S ++ [c])) 8, ?_, ?_⟩
      · rw [heq, ← h.horner_toNat h0, ← toBytes_eq_bytesOf]
        simp [byteWords]
      · have hsound := (hu.sound_iff hS).2 (by rw [heq]; exact h0)
        rw [hsound.provisionalBytes_eq, ((h.sound_iff hS').2 h0).provisionalBytes_eq,
          fullGroupBytes, fullChunks_append_full c (by omega), List.flatMap_append,
          List.flatMap_singleton]
        rfl
    · exact ⟨[], by rw [heq]; exact (List.append_nil _).symm, hdrained (by rw [heq])⟩
  · rw [decodeChar_drain A c t h3 hc] at hstep
    obtain rfl := Host.Outcome.next.inj hstep
    exact ⟨[], (List.append_nil _).symm, hdrained h3⟩

end

/-- The `DECS`s of symbols answer the provisional bytes. -/
theorem runWords_decodeSymbols_rsp {A : Alphabet} {S : List Byte} {s : State} (hs : Inv A s)
    (h0 : DecodeIdle s) (hS : ∀ c ∈ S, (inv A c).valid = true) :
    ∃ t, runWords (execWith A) (words (S.map .decs)) s = .next t ∧ DecodedSoFar A S t ∧
      t.rsp = s.rsp ++ byteWords (provisionalBytes A S) := by
  induction S using List.reverseRecOn with
  | nil => exact ⟨s, rfl, .nil hs h0, (List.append_nil _).symm⟩
  | append_singleton S c ih =>
    obtain ⟨t, hrun, ht, hrsp⟩ := ih fun x hx => hS x (List.mem_append_left _ hx)
    obtain ⟨u, hstep, hu⟩ := ht.decodeChar (hS c (by simp))
    obtain ⟨bs, hbs, hprov⟩ := ht.decodeChar_rsp hS hu hstep
    refine ⟨u, ?_, hu, ?_⟩
    · rw [List.map_append]
      exact runWords_words_append_singleton hrun hstep
    · rw [hbs, hrsp, hprov, List.append_assoc, byteWords, byteWords, byteWords, List.map_append]

/-- The `DECS`s of characters with an invalid one among them answer the provisional bytes and leave
the stream dead with the first such character (R201). -/
theorem runWords_decodeInvalid_rsp {A : Alphabet} {pre : List Byte} {c : Byte} {s : State}
    (hs : Inv A s) (h0 : DecodeIdle s) (hpre : ∀ x ∈ pre, (inv A x).valid = true)
    (hc : (inv A c).valid = false) (post : List Byte) :
    ∃ t, runWords (execWith A) (words ((pre ++ c :: post).map .decs)) s = .next t ∧
      t.err = 1#3 ∧ t.echr = c ∧
      t.rsp = s.rsp ++ byteWords (provisionalBytes A (pre ++ c :: post)) := by
  obtain ⟨t, hrun, ht, hrsp⟩ := runWords_decodeSymbols_rsp hs h0 hpre
  have hlive : t.err ≠ 1#3 := by obtain h | h := ht.err <;> simp [h]
  have hdead : execWith A (.decs c) t = .next { t with err := 1#3, echr := c } :=
    (decodeChar_invalid A c t hlive hc).trans (by rw [raise_invalidCharacter c t ht.err])
  have hword := runWords_words_append_singleton hrun hdead
  refine ⟨{ t with err := 1#3, echr := c }, ?_, rfl, rfl, ?_⟩
  · rw [List.append_cons, List.map_append, words, List.map_append, ← words, ← words, List.map_append,
      List.map_singleton, runWords_append hword]
    exact runWords_decs_dead A post rfl
  · rw [provisionalBytes_invalid pre post hc]
    exact hrsp

/-! ### A decode stream: the verdict -/

/-- What a decode stream of `S` answers in all: its bytes, then `FIN(v, d)` (R173). -/
def decodeAnswer (A : Alphabet) (S : List Byte) : List Word16 :=
  byteWords (emittedBytes A S) ++
    [responseWord (.fin (verdictOf (decodeBuffer A S)).1 (verdictOf (decodeBuffer A S)).2)]

theorem decodeAnswer_ok {A : Alphabet} {S B : List Byte} (h : decodeBuffer A S = .ok B) :
    decodeAnswer A S = byteWords B ++ [responseWord (.fin 0#4 0#8)] := by
  simp [decodeAnswer, emittedBytes, verdictOf, h]

theorem decodeAnswer_error {A : Alphabet} {S : List Byte} {e : DecodeError}
    (h : decodeBuffer A S = .error e) :
    decodeAnswer A S = byteWords (provisionalBytes A S) ++
      [responseWord (.fin ((errorCode e).setWidth 4) (errorInfo e))] := by
  simp [decodeAnswer, emittedBytes, verdictOf, h]

/-- `DECF` in the clean condition with a trailing group in range (R142); no bytes for an empty one. -/
theorem finishResponses_inRange {s : State} {n : BitVec 4} (h0 : s.err = 0#3)
    (hv : s.dacc.toNat < 2 ^ (8 * n.toNat)) :
    finishResponses ⟨true, n⟩ s = (bytesOf s.dacc.toNat n.toNat).map .byte ++ [.fin 0#4 0#8] := by
  by_cases hn : n = 0#4
  · simp [finishResponses, h0, hn, bytesOf]
  · simp [finishResponses, h0, hn, hv, inRange, toBytes_eq_bytesOf]

/-- `DECF` with a trailing group out of range, which is none of 0 bytes (R142, R203). -/
theorem finishResponses_outOfRange {s : State} {n : BitVec 4} (h0 : s.err = 0#3) (hn : n ≠ 0#4)
    (hv : ¬ s.dacc.toNat < 2 ^ (8 * n.toNat)) :
    finishResponses ⟨true, n⟩ s = [.fin 3#4 0#8] := by
  simp [finishResponses, h0, hn, hv, inRange]

/-- After the symbols `S`, `DECF` completes the answer of the stream (R142, R173). -/
theorem DecodedSoFar.finishResponses_eq {A : Alphabet} {S : List Byte} {t : State} {e : KinvEntry}
    (h : DecodedSoFar A S t) (hS : ∀ c ∈ S, (inv A c).valid = true)
    (he : kinv (S.length % 11) = some e) :
    byteWords (provisionalBytes A S) ++ (finishResponses e t).map responseWord =
      decodeAnswer A S := by
  have hlive : t.err ≠ 1#3 := by obtain h | h := h.err <;> simp [h]
  obtain ⟨valid, n⟩ := e
  cases valid with
  | false =>
    rw [decodeAnswer_error (decodeBuffer_invalidLength hS he rfl)]
    simp [finishResponses, hlive, errorCode, errorInfo]
  | true =>
    obtain h0 | h3 := h.err
    · have hsound := (h.sound_iff hS).2 h0
      by_cases hlast : charsValue A (lastChunk 11 S) < 2 ^ (8 * n.toNat)
      · rw [decodeAnswer_ok (decodeBuffer_ok hS he hsound.2 hlast), hsound.provisionalBytes_eq,
          finishResponses_inRange h0 (by rwa [h.dacc h0]), h.dacc h0]
        simp [byteWords]
      · have hn : n ≠ 0#4 := by
          rintro rfl
          have hnil : lastChunk 11 S = [] :=
            List.eq_nil_of_length_eq_zero (by simpa using ((kinv_entry he).2 rfl).1 rfl)
          simp [hnil, charsValue] at hlast
        rw [decodeAnswer_error (decodeBuffer_outOfRange hS he fun hboth => hlast hboth.2),
          finishResponses_outOfRange h0 hn (by rwa [h.dacc h0])]
        rfl
    · have hbad : ¬ FullGroupsInRange A S := fun hfull => by
        simp [(h.sound_iff hS).1 ⟨hS, hfull⟩] at h3
      rw [decodeAnswer_error (decodeBuffer_outOfRange hS he fun hboth => hbad hboth.1)]
      simp [finishResponses, h3, errorCode, errorInfo]

/-- The commands of a decode stream alone (R173). -/
theorem runWords_decodeStream (A : Alphabet) (S : List Byte) {s : State} (hs : Inv A s)
    (h0 : DecodeIdle s) :
    ∃ t u, runWords (execWith A) (words (decodeStream S)) s = .next u ∧ decodeFinish t = .next u ∧
      u.rsp = s.rsp ++ decodeAnswer A S := by
  obtain hS | ⟨pre, c, post, rfl, hpre, hc⟩ := all_valid_or_first_invalid A S
  · obtain ⟨t, hrun, ht, hrsp⟩ := runWords_decodeSymbols_rsp hs h0 hS
    obtain ⟨e, he⟩ := exists_kinv_mod S.length
    have hfinish := decodeFinish_eq (ht.ns ▸ he)
    refine ⟨t, _, runWords_words_append_singleton hrun hfinish, hfinish, ?_⟩
    rw [clearDecodeSide_rsp, emit_rsp, hrsp, List.append_assoc, ht.finishResponses_eq hS he]
  · obtain ⟨t, hrun, herr, hechr, hrsp⟩ := runWords_decodeInvalid_rsp hs h0 hpre hc post
    have hfinish := decodeFinish_dead t herr
    refine ⟨t, _, runWords_words_append_singleton hrun hfinish, hfinish, ?_⟩
    rw [closeDecode_rsp, hrsp, hechr, List.append_assoc,
      decodeAnswer_error (decodeBuffer_invalidCharacter hpre hc post)]
    rfl

/-- Settles O49: the stream alone by its commands, and the decode side is owned by them. -/
theorem decodeStreamComputesDecode : Obligations.DecodeStreamComputesDecode := by
  intro A S ws s hs h0 hws
  obtain ⟨v, u, hrun, hfinish, hrsp⟩ := runWords_decodeStream A S hs h0
  obtain ⟨hdacc, hns, herr, hechr⟩ := decodeFinish_clear hfinish
  obtain ⟨t, ht, hpart, hout⟩ := (decodeSide_owned A).interleaved hs hws hrun hrsp
  exact ⟨t, ht, (congrArg State.dacc hpart).trans hdacc, (congrArg State.ns hpart).trans hns,
    (congrArg State.err hpart).trans herr, (congrArg State.echr hpart).trans hechr, hout⟩

end Sys2Proof.Machine
end

section
/-! ## The host procedures on the machine -/

namespace Sys2Proof.Machine

/-! ### What a command word answers, as the host sorts it -/

/-- The response that carries a byte of a stream: `SYM` or `BYTE` (R87). -/
def streamResponse : Side → Byte → Response
  | .encode => .sym
  | .decode => .byte

/-- The commands that write a side, `CLR` among them (R132 (d), R143 (b)). -/
def writesSide : Side → Word16 → Bool
  | .encode => writesEncodeSide
  | .decode => writesDecodeSide

/-- The response is none that a host collects: neither a stream's byte nor a `FIN`. -/
def Uncollected (r : Response) : Prop := (∀ d b, r ≠ streamResponse d b) ∧ ∀ v x, r ≠ .fin v x

/-- The command `w` is one of the side `d` alone. -/
def BelongsTo (d : Side) (w : Word16) : Prop := ∀ d', writesSide d' w = true ↔ d = d'

/-- The answers `rs` that a command word `w` can have, by what they mean to the host (R86, R236). -/
inductive AnswerOf (w : Word16) : List Response → Prop
  | silent (hfin : finishedSide w = none) : AnswerOf w []
  | control (hfin : finishedSide w = none) (hw : ∀ d, writesSide d w = false) (r : Response)
      (hr : Uncollected r) : AnswerOf w [r]
  | data (d : Side) (hfin : finishedSide w = none) (hw : BelongsTo d w) (bs : List Byte) :
      AnswerOf w (bs.map (streamResponse d))
  | finish (d : Side) (hfin : finishedSide w = some d) (hw : BelongsTo d w) (bs : List Byte)
      (v : BitVec 4) (x : Byte) : AnswerOf w (bs.map (streamResponse d) ++ [.fin v x])

theorem AllSymbols.exists_map {A : Alphabet} {rs : List Response} (h : AllSymbols A rs) :
    ∃ cs : List Byte, cs.map (streamResponse .encode) = rs :=
  (Set.range_list_map _).ge fun r hr => (h r hr).elim fun d hd => ⟨alpha A d, hd.symm⟩

theorem AllBytes.exists_map {rs : List Response} (h : AllBytes rs) :
    ∃ bs : List Byte, bs.map (streamResponse .decode) = rs :=
  (Set.range_list_map _).ge fun r hr => (h r hr).imp fun _ => Eq.symm

theorem belongsTo_encode {w : Word16} {i : Instr} (hd : decode w = .ok i) (hi : IsEncode i) :
    BelongsTo .encode w := by
  obtain ⟨b, rfl⟩ | rfl := hi <;> rintro (_ | _) <;>
    simp [writesSide, writesEncodeSide, writesDecodeSide, hd]

theorem belongsTo_decode {w : Word16} {i : Instr} (hd : decode w = .ok i) (hi : IsDecode i) :
    BelongsTo .decode w := by
  obtain ⟨c, rfl⟩ | rfl := hi <;> rintro (_ | _) <;>
    simp [writesSide, writesEncodeSide, writesDecodeSide, hd]

theorem uncollected_stat (st : BitVec 12) : Uncollected (.stat st) :=
  ⟨by rintro (_ | _) <;> simp [streamResponse], by simp⟩

theorem uncollected_illc : Uncollected .illc :=
  ⟨by rintro (_ | _) <;> simp [streamResponse], by simp⟩

/-- What an instruction answers is an answer of its command word. -/
theorem execWith_answerOf {A : Alphabet} {w : Word16} {i : Instr} {s t : State} (hs : Inv A s)
    (hd : decode w = .ok i) (h : execWith A i s = .next t) :
    ∃ rs : List Response, t.rsp = s.rsp ++ rs.map responseWord ∧ AnswerOf w rs := by
  obtain ⟨-, hdecode⟩ := (inv_iff A s).1 hs
  cases i with
  | nop =>
    obtain rfl := Host.Outcome.next.inj h
    exact ⟨[], by simp, .silent (by simp [finishedSide, hd])⟩
  | clr =>
    obtain rfl := Host.Outcome.next.inj h
    exact ⟨[], by simp, .silent (by simp [finishedSide, hd])⟩
  | rdst =>
    obtain rfl := Host.Outcome.next.inj h
    have hw : ∀ d, writesSide d w = false := by
      rintro (_ | _) <;> simp [writesSide, writesEncodeSide, writesDecodeSide, hd]
    exact ⟨_, rfl, .control (by simp [finishedSide, hd]) hw _ (uncollected_stat _)⟩
  | encb b =>
    have hfin : finishedSide w = none := by simp [finishedSide, hd]
    obtain ⟨rs, hrsp, rfl | ⟨-, hrs⟩⟩ := encodeByte_responses h
    · exact ⟨[], hrsp, .silent hfin⟩
    · obtain ⟨cs, rfl⟩ := hrs.exists_map
      exact ⟨_, hrsp, .data .encode hfin (belongsTo_encode hd (.inl ⟨b, rfl⟩)) cs⟩
  | encf =>
    obtain ⟨ss, hrsp, -, hss⟩ := encodeFinish_responses h
    obtain ⟨cs, rfl⟩ := hss.exists_map
    exact ⟨_, hrsp,
      .finish .encode (by simp [finishedSide, hd]) (belongsTo_encode hd (.inr rfl)) cs _ _⟩
  | decs c =>
    have hfin : finishedSide w = none := by simp [finishedSide, hd]
    obtain ⟨rs, hrsp, rfl | ⟨-, hrs⟩⟩ := decodeChar_responses hdecode h
    · exact ⟨[], hrsp, .silent hfin⟩
    · obtain ⟨bs, rfl⟩ := hrs.exists_map
      exact ⟨_, hrsp, .data .decode hfin (belongsTo_decode hd (.inl ⟨c, rfl⟩)) bs⟩
  | decf =>
    obtain ⟨bs, v, x, hrsp, -, hbs, -⟩ := decodeFinish_responses hdecode h
    obtain ⟨bs, rfl⟩ := hbs.exists_map
    exact ⟨_, hrsp,
      .finish .decode (by simp [finishedSide, hd]) (belongsTo_decode hd (.inr rfl)) bs v x⟩

theorem runWord_answerOf {A : Alphabet} {w : Word16} {s t : State} (hs : Inv A s)
    (h : runWord (execWith A) w s = .next t) :
    ∃ rs : List Response, newResponses s t = rs.map responseWord ∧ AnswerOf w rs := by
  obtain ⟨i, hd, hi⟩ | ⟨e, hd, rfl⟩ := runWord_cases h
  · obtain ⟨rs, hrsp, hrs⟩ := execWith_answerOf hs hd hi
    exact ⟨rs, newResponses_append s t _ hrsp, hrs⟩
  · have hw : ∀ d, writesSide d w = false := by
      rintro (_ | _) <;> simp [writesSide, writesEncodeSide, writesDecodeSide, hd]
    exact ⟨[.illc], newResponses_append s _ _ rfl,
      .control (by simp [finishedSide, hd]) hw _ uncollected_illc⟩

/-! ### Collecting one side's output -/

/-- A host procedure that collects the output of the side `d`: it puts each byte of that side before
what it collects later, ends at that side's `FIN`, and passes over every other word (R182 (4),
R183 (4), R236). -/
structure Collects (d : Side) {β : Type} (collect : List Side → List Word16 → Option β)
    (put : Byte → β → β) (done : BitVec 4 → Byte → β) : Prop where
  byte : ∀ order b ws, collect order (responseWord (streamResponse d b) :: ws) =
    (collect order ws).map (put b)
  ownFin : ∀ later v x ws, collect (d :: later) (responseWord (.fin v x) :: ws) = some (done v x)
  otherFin : ∀ d' later v x ws, d' ≠ d →
    collect (d' :: later) (responseWord (.fin v x) :: ws) = collect later ws
  skip : ∀ order r ws, (∀ b, r ≠ streamResponse d b) → (∀ v x, r ≠ .fin v x) →
    collect order (responseWord r :: ws) = collect order ws

theorem collectSymbols_collects :
    Collects .encode collectSymbols List.cons fun _ _ => [] where
  byte order c ws := collectSymbols_sym order ws (readResponse_responseWord _)
  ownFin later v x ws := collectSymbols_ownFin later ws (readResponse_responseWord _)
  otherFin d' later v x ws hd := by
    cases d' with
    | encode => exact absurd rfl hd
    | decode => exact collectSymbols_otherFin later ws (readResponse_responseWord _)
  skip order r ws hb hf := collectSymbols_skip order [responseWord r] ws (by
    simpa [readResponse_responseWord, streamResponse] using And.intro hb hf)

theorem collectBytes_collects :
    Collects .decode collectBytes (fun b r => { r with bytes := b :: r.bytes })
      fun v x => ⟨[], v, x⟩ where
  byte order b ws := collectBytes_byte order ws (readResponse_responseWord _)
  ownFin later v x ws := collectBytes_ownFin later ws (readResponse_responseWord _)
  otherFin d' later v x ws hd := by
    cases d' with
    | encode => exact collectBytes_otherFin later ws (readResponse_responseWord _)
    | decode => exact absurd rfl hd
  skip order r ws hb hf := collectBytes_skip order [responseWord r] ws (by
    simpa [readResponse_responseWord, streamResponse] using And.intro hb hf)

section
variable {d : Side} {β : Type} {collect : List Side → List Word16 → Option β} {put : Byte → β → β}
  {done : BitVec 4 → Byte → β} (hc : Collects d collect put done)
include hc

theorem Collects.bytes (order : List Side) (bs : List Byte) (ws : List Word16) :
    collect order (bs.map (fun b => responseWord (streamResponse d b)) ++ ws) =
      (collect order ws).map fun r => bs.foldr put r := by
  induction bs with
  | nil => simp
  | cons b bs ih =>
    rw [List.map_cons, List.cons_append, hc.byte, ih, Option.map_map]
    rfl

theorem Collects.otherBytes {d' : Side} (hd : d' ≠ d) (order : List Side) (bs : List Byte)
    (ws : List Word16) :
    collect order (bs.map (fun b => responseWord (streamResponse d' b)) ++ ws) =
      collect order ws := by
  have hother : ∀ b b', streamResponse d' b ≠ streamResponse d b' := by
    intro b b'
    cases d <;> cases d' <;> simp_all [streamResponse]
  have hfin : ∀ b v x, streamResponse d' b ≠ .fin v x := by
    intro b v x
    cases d' <;> simp [streamResponse]
  induction bs with
  | nil => rfl
  | cons b bs ih => rw [List.map_cons, List.cons_append, hc.skip _ _ _ (hother b) (hfin b), ih]

/-- A whole stream's output, ended by its `FIN`. -/
theorem Collects.stream (later : List Side) (bs : List Byte) (v : BitVec 4) (x : Byte)
    (ws : List Word16) :
    collect (d :: later)
        (bs.map (fun b => responseWord (streamResponse d b)) ++ responseWord (.fin v x) :: ws) =
      some (bs.foldr put (done v x)) := by
  rw [hc.bytes, hc.ownFin, Option.map_some]

/-- The answers of one command word: those of the own side count alike with and without other
answers after them, those of the other commands do not count. -/
theorem Collects.answerOf {w : Word16} {rs : List Response} (hrs : AnswerOf w rs)
    {ws ws' out out' : List Word16}
    (hlater : collect (finishOrder ws) out = collect (finishOrder ws') out') :
    collect (finishOrder (w :: ws)) (rs.map responseWord ++ out) =
      if writesSide d w then collect (finishOrder (w :: ws')) (rs.map responseWord ++ out')
      else collect (finishOrder ws') out' := by
  cases hrs with
  | silent hfin =>
    rw [finishOrder_cons_none ws hfin, finishOrder_cons_none ws' hfin]
    simpa using hlater
  | control hfin hw r hr =>
    rw [finishOrder_cons_none ws hfin, hw d, if_neg (by simp), ← hlater]
    exact hc.skip _ r out (hr.1 d) hr.2
  | data d' hfin hw bs =>
    rw [finishOrder_cons_none ws hfin, finishOrder_cons_none ws' hfin, List.map_map]
    by_cases hd : d' = d
    · subst hd
      rw [if_pos ((hw _).2 rfl)]
      exact (hc.bytes _ bs out).trans (hlater ▸ (hc.bytes _ bs out').symm)
    · rw [if_neg (mt (hw d).1 hd), ← hlater]
      exact hc.otherBytes hd _ bs out
  | finish d' hfin hw bs v x =>
    rw [finishOrder_cons_some ws hfin, finishOrder_cons_some ws' hfin, List.map_append, List.map_map,
      List.append_assoc, List.append_assoc]
    by_cases hd : d' = d
    · subst hd
      rw [if_pos ((hw _).2 rfl)]
      exact (hc.stream _ bs v x out).trans (hc.stream _ bs v x out').symm
    · rw [if_neg (mt (hw d).1 hd), ← hlater]
      exact (hc.otherBytes hd _ bs _).trans (hc.otherFin d' _ v x out hd)

/-- The host collects from all the answers what it would collect from those of the side's own commands
alone (R236). -/
theorem Collects.answers_eq {A : Alphabet} (ws : List Word16) {s : State} (hs : Inv A s) :
    collect (finishOrder ws) (answers A ws s) =
      collect (finishOrder (ws.filter (writesSide d)))
        (responsesOf (writesSide d) (trace (execWith A) ws s)) := by
  induction ws generalizing s with
  | nil => rfl
  | cons w ws ih =>
    obtain ⟨u, hu⟩ := runWord_answers hs w
    obtain ⟨rs, hnew, hrs⟩ := runWord_answerOf hs hu
    rw [answers_cons ws hu, trace_cons_next ws hu, responsesOf_cons, List.filter_cons, hnew,
      hc.answerOf hrs (ih (runWord_keeps_inv hs hu))]
    split_ifs <;> rfl

/-- The host collects the whole output of one stream of its side, with other commands between. -/
theorem Collects.answers_stream {A : Alphabet} {ws stream : List Word16} {s : State} {bs : List Byte}
    {v : BitVec 4} {x : Byte} (hs : Inv A s) (hws : ws.filter (writesSide d) = stream)
    (hfin : finishOrder stream = [d])
    (hout : responsesOf (writesSide d) (trace (execWith A) ws s) =
      bs.map (fun b => responseWord (streamResponse d b)) ++ [responseWord (.fin v x)]) :
    collect (finishOrder ws) (answers A ws s) = some (bs.foldr put (done v x)) := by
  rw [hc.answers_eq ws hs, hws, hfin, hout, hc.stream]

end

/-! ### The two procedures -/

theorem finishOrder_words_map {f : Byte → Instr} (hf : ∀ b, finishedSide (encode (f b)) = none)
    (xs : List Byte) : finishOrder (words (xs.map f)) = [] := by
  simp [finishOrder, words, hf]

theorem finishOrder_encodeStream (B : List Byte) :
    finishOrder (words (encodeStream B)) = [.encode] := by
  rw [encodeStream, words, List.map_append, finishOrder_append, ← words,
    finishOrder_words_map fun b => by simp [finishedSide]]
  rfl

theorem finishOrder_decodeStream (S : List Byte) :
    finishOrder (words (decodeStream S)) = [.decode] := by
  rw [decodeStream, words, List.map_append, finishOrder_append, ← words,
    finishOrder_words_map fun b => by simp [finishedSide]]
  rfl

/-- The host collects `Encode(B)` from the answers (R182). -/
theorem collectSymbols_answers {A : Alphabet} {B : List Byte} {ws : List Word16} {s : State}
    (hs : Inv A s) (h0 : EncodeIdle s) (hws : ws.filter writesEncodeSide = words (encodeStream B)) :
    collectSymbols (finishOrder ws) (answers A ws s) = some (encodeBuffer A B) := by
  obtain ⟨t, -, -, -, hout⟩ := encodeStreamComputesEncode A B ws s hs h0 hws
  rw [collectSymbols_collects.answers_stream (v := 0#4) (x := 0#8) hs hws
    (finishOrder_encodeStream B) hout, List.foldr_cons_nil]

/-- The report of a decode stream of `S`. -/
def reportOf (A : Alphabet) (S : List Byte) : DecodeReport :=
  ⟨emittedBytes A S, (verdictOf (decodeBuffer A S)).1, (verdictOf (decodeBuffer A S)).2⟩

theorem foldr_bytes (bs : List Byte) (r : DecodeReport) :
    bs.foldr (fun b r => { r with bytes := b :: r.bytes }) r = { r with bytes := bs ++ r.bytes } := by
  induction bs with
  | nil => rfl
  | cons b bs ih => rw [List.foldr_cons, ih, List.cons_append]

/-- The host collects the bytes and the verdict of `Decode(S)` from the answers (R183). -/
theorem collectBytes_answers {A : Alphabet} {S : List Byte} {ws : List Word16} {s : State}
    (hs : Inv A s) (h0 : DecodeIdle s) (hws : ws.filter writesDecodeSide = words (decodeStream S)) :
    collectBytes (finishOrder ws) (answers A ws s) = some (reportOf A S) := by
  obtain ⟨t, -, -, -, -, -, hout⟩ := decodeStreamComputesDecode A S ws s hs h0 hws
  rw [collectBytes_collects.answers_stream hs hws (finishOrder_decodeStream S) hout, foldr_bytes,
    List.append_nil, reportOf]

/-- What the host returns for the result of `Decode` (R183 (5), R234). -/
def hostResult : Except DecodeError (List Byte) → Except (BitVec 4 × Byte) (List Byte)
  | .ok B => .ok B
  | .error e => .error ((errorCode e).setWidth 4, errorInfo e)

/-- The host returns all of `Decode(S)`, or its error and no bytes (R183 (5), R234). -/
theorem acceptReport_reportOf (A : Alphabet) (S : List Byte) :
    acceptReport (reportOf A S) = hostResult (decodeBuffer A S) := by
  cases h : decodeBuffer A S with
  | ok B => simp [acceptReport, reportOf, emittedBytes, verdictOf, hostResult, h]
  | error e =>
    have hcode : (errorCode e).setWidth 4 ≠ 0#4 := by cases e <;> simp [errorCode]
    simp [acceptReport, reportOf, verdictOf, hostResult, h, hcode]

/-- The provisional output fits the room the host reserves (R183 (2)). -/
theorem emittedBytes_length_le (A : Alphabet) (S : List Byte) :
    (emittedBytes A S).length ≤ decodedBound S.length := by
  cases h : decodeBuffer A S with
  | ok B =>
    obtain ⟨-, n, hn, -, -, rfl⟩ := decodeBuffer_eq_ok h
    have hn7 := kinv_n_le_seven hn
    simp only [emittedBytes, h, List.length_append, fullGroupBytes_length, bytesOf_length,
      decodedBound]
    exact Nat.add_le_add_left hn7 _
  | error e =>
    have htaken := (List.takeWhile_sublist (l := fullChunks 11 S) (groupSound A)).length_le
    rw [fullChunks_length] at htaken
    simp only [emittedBytes, h, provisionalBytes_eq, List.length_flatMap, bytesOf_length,
      List.map_const', List.sum_replicate, decodedBound, smul_eq_mul]
    omega

/-- Settles O59: the host skips what is not the stream's. -/
theorem hostEncodeIsComplete : Obligations.HostEncodeIsComplete := by
  intro A B ws s hs h0 hws
  obtain ⟨t, ht, -, hrsp⟩ := runWords_legal hs ws
  exact ⟨t, ht, by rw [newResponses_append s t _ hrsp, collectSymbols_answers hs h0 hws],
    encodeBuffer_length A B⟩

/-- Settles O58: the host collects the report of `Decode(S)` and accepts or rejects the whole. -/
theorem hostDecodeIsAllOrNothing : Obligations.HostDecodeIsAllOrNothing := by
  intro A S ws s hs h0 hws
  obtain ⟨t, ht, -, hrsp⟩ := runWords_legal hs ws
  exact ⟨t, reportOf A S, ht,
    by rw [newResponses_append s t _ hrsp, collectBytes_answers hs h0 hws], rfl,
    emittedBytes_length_le A S, acceptReport_reportOf A S⟩

/-- Settles O57: what the encode procedure collects is `Encode(B)`, and the decode procedure, on the
legal state the first one leaves, gives `Decode` of it. -/
theorem hostRoundTripOnTheMachine : Obligations.HostRoundTripOnTheMachine := by
  intro A B ws s hs h0 hws
  obtain ⟨t, ht, htInv, hrsp⟩ := runWords_legal hs ws
  refine ⟨t, encodeBuffer A B, ht,
    by rw [newResponses_append s t _ hrsp, collectSymbols_answers hs h0 hws],
    encodeBuffer_length A B, fun hidle hnone => ?_, fun hidle ws' hws' => ?_⟩
  · have hpart : decodePart t = decodePart s :=
      (decodeSide_owned A).part_filter ws hs hs rfl ht (by rw [hnone]; rfl)
    obtain ⟨hns, herr⟩ := hidle
    exact ⟨(congrArg State.ns hpart).trans hns, (congrArg State.err hpart).trans herr⟩
  · obtain ⟨u, hu, -, hrsp'⟩ := runWords_legal htInv ws'
    refine ⟨u, hu, ?_⟩
    rw [newResponses_append t u _ hrsp', collectBytes_answers htInv hidle hws', Option.map_some,
      acceptReport_reportOf, decodeInvertsEncode A B, hostResult]

/-! ### Responses taken while commands are issued -/

/-- The registers of a state; `DIG` and the channels as after reset. -/
def registers (s : State) : State :=
  { State.reset with
    eacc := s.eacc, nb := s.nb, dacc := s.dacc, ns := s.ns, err := s.err, echr := s.echr,
    ill := s.ill }

/-- What an instruction answers and leaves in the registers depends on the registers alone (R26). -/
theorem execWith_registers {A : Alphabet} {i : Instr} {s t : State} (h : execWith A i s = .next t) :
    ∃ u, execWith A i (registers s) = .next u ∧ newResponses s t = u.rsp ∧
      registers t = registers u := by
  obtain ⟨rfl, rfl⟩ | ⟨rfl, rfl⟩ | ⟨rfl, rfl⟩ | ⟨hi, dig, u, hu, rfl⟩ | ⟨hi, u, hu, rfl⟩ :=
    execWith_cases h
  · exact ⟨_, rfl, newResponses_append t t [] (List.append_nil _).symm, rfl⟩
  · exact ⟨_, rfl, newResponses_clearRegisters s, rfl⟩
  · exact ⟨_, rfl, newResponses_append s _ _ rfl, rfl⟩
  · obtain ⟨dig', hlocal⟩ := execWith_encode_local A hi (registers s)
    have hu' : execWith A i (encodePart (registers s)) = .next u := hu
    exact ⟨_, hlocal.trans (congrArg (mapNext _) hu'), newResponses_append s _ _ rfl, rfl⟩
  · have hu' : execWith A i (decodePart (registers s)) = .next u := hu
    exact ⟨_, (execWith_decode_local A hi (registers s)).trans (congrArg (mapNext _) hu'),
      newResponses_append s _ _ rfl, rfl⟩

/-- All the commands together own all the registers. -/
theorem registers_owned (A : Alphabet) : OwnedBy A (fun _ => true) registers where
  kept hw := by simp at hw
  determined {w s s' t t'} _ hreg h h' := by
    obtain ⟨i, hd, hi⟩ | ⟨e, hd, rfl⟩ := runWord_cases h
    · simp only [runWord, hd] at h'
      obtain ⟨u, hu, hrsp, hregs⟩ := execWith_registers hi
      obtain ⟨u', hu', hrsp', hregs'⟩ := execWith_registers h'
      obtain rfl : u = u' := Host.Outcome.next.inj (hu.symm.trans (hreg ▸ hu'))
      exact ⟨hrsp.trans hrsp'.symm, hregs.trans hregs'.symm⟩
    · rw [runWord_illegal _ hd] at h'
      obtain rfl := Host.Outcome.next.inj h'
      exact ⟨(newResponses_append s _ _ (illegalCommand_rsp s)).trans
        (newResponses_append s' _ _ (illegalCommand_rsp s')).symm,
        congrArg (fun r => registers { r with ill := 1#1 }) hreg⟩

/-- A command word changes neither what the host has nor what it plans (R233). -/
theorem runWord_frame {A : Alphabet} {w : Word16} {s t : State}
    (h : runWord (execWith A) w s = .next t) : t.delivered = s.delivered ∧ t.host = s.host := by
  obtain ⟨i, -, hi⟩ | ⟨e, -, rfl⟩ := runWord_cases h
  · obtain ⟨-, rfl⟩ | ⟨-, rfl⟩ | ⟨-, rfl⟩ | ⟨-, dig, u, -, rfl⟩ | ⟨-, u, -, rfl⟩ :=
      execWith_cases hi <;> exact ⟨rfl, rfl⟩
  · exact ⟨rfl, rfl⟩

/-- The machine of the interface performs the next act of the host, then the others. -/
theorem run_event {s t : State} {e : HostEvent} {rest : List HostEvent} (hhost : s.host = e :: rest)
    (h : runEvent (execWith alphabet) e { s with host := rest } = .next t) (k : Nat) :
    Host.Core.run core (k + 1) s = Host.Core.run core k t := by
  have hstep : core.step s = .next t :=
    (step_eq_stepWith s).trans ((stepBy_event _ s e rest hhost).trans h)
  simp only [Host.Core.run, hstep]

/-- Whatever the host takes and whenever, short of a reset, what it has taken followed by what is on
offer grows by the answers of the words it issues, run from any state with the same registers. -/
theorem run_events (es : List HostEvent) {s s' : State} (hs : Inv alphabet s) (hs' : Inv alphabet s')
    (hreg : registers s = registers s') (hhost : s.host = es) (hreset : HostEvent.reset ∉ es) :
    ∃ t : State, Host.Core.run core es.length s = .next t ∧
      t.delivered ++ t.rsp = s.delivered ++ s.rsp ++ answers alphabet (issuedWords es) s' := by
  induction es generalizing s s' with
  | nil => exact ⟨s, rfl, (List.append_nil _).symm⟩
  | cons e es ih =>
    have hrest := List.not_mem_of_not_mem_cons hreset
    cases e with
    | reset => exact absurd List.mem_cons_self hreset
    | takeResponse =>
      obtain ⟨t, ht, hout⟩ := ih (s := takeResponse { s with host := es }) hs hs' hreg rfl hrest
      refine ⟨t, (run_event hhost rfl _).trans ht, hout.trans ?_⟩
      rw [takeResponse_channel]
      rfl
    | command w =>
      have hreg' : registers { s with host := es } = registers s' := hreg
      obtain ⟨u, hu⟩ := runWord_answers (s := { s with host := es }) hs w
      obtain ⟨u', hu'⟩ := runWord_answers hs' w
      obtain ⟨hnew, hregs⟩ := (registers_owned alphabet).determined rfl hreg' hu hu'
      obtain ⟨hdelivered, hhost'⟩ := runWord_frame hu
      obtain ⟨t, ht, hout⟩ := ih (runWord_keeps_inv (s := { s with host := es }) hs hu)
        (runWord_keeps_inv hs' hu') hregs hhost' hrest
      refine ⟨t, (run_event hhost hu _).trans ht, ?_⟩
      rw [hout, hdelivered, runWord_rsp hu, hnew, issuedWords_command, answers_cons _ hu']
      simp

/-- Settles O60: what the host has and is offered grows by the answers of the words it issued, and from
those each procedure collects its own. -/
theorem hostMayReadWhileIssuing : Obligations.HostMayReadWhileIssuing := by
  intro es s hs hhost hreset
  obtain ⟨t, ht, hout⟩ := run_events es hs hs rfl hhost hreset
  have hsince : answersSince s t = answers alphabet (issuedWords es) s := by
    rw [answersSince, hout, List.drop_left]
  refine ⟨t, ht, fun B h0 hws => ?_, fun S h0 hws => ?_⟩
  · rw [hsince, collectSymbols_answers hs h0 hws]
  · rw [hsince, collectBytes_answers hs h0 hws]
    exact congrArg some (acceptReport_reportOf alphabet S)

end Sys2Proof.Machine
end

section
/-! ## Errors and safe runs -/

namespace Sys2Proof.Machine

/-! ### Raising an error -/

/-- The merge by code as one condition: none is recorded yet, or the new code outranks it (R206). -/
theorem merge_eq_ite (old e : BitVec 3) :
    merge old e = if old = 0#3 ∨ e.toNat < old.toNat then e else old := by
  by_cases h0 : old = 0#3
  · simp [merge, h0]
  · simp [merge, h0, BitVec.lt_def]

/-- InvalidCharacter, the highest rank, leaves `ERR` as it is only where it is recorded already (R206). -/
theorem merge_one_eq_self_iff (old : BitVec 3) : merge old 1#3 = old ↔ old = 1#3 := by
  revert old; decide

/-- `ECHR` takes the character of the first InvalidCharacter, and no other error writes it (R206). -/
theorem mergeChar_eq_ite (old : BitVec 3) (echr : Byte) (e : DecodeError) :
    mergeChar old echr e = if errorCode e = 1#3 ∧ old ≠ 1#3 then errorInfo e else echr := by
  cases e with
  | invalidCharacter c => simp [mergeChar, merge_one_eq_self_iff, errorCode, errorInfo]
  | invalidLength => simp [mergeChar, errorCode]
  | valueOutOfRange => simp [mergeChar, errorCode]

/-- Settles O35: `raise` writes the merged code and the merged character. -/
theorem raiseMergesByPriority : Obligations.RaiseMergesByPriority := fun e s => by
  rw [raise, merge_eq_ite, mergeChar_eq_ite]

/-! ### No byte after an error -/

/-- None of the responses is a `BYTE` (R87). -/
def NoBytes (rs : List Response) : Prop := ∀ r ∈ rs, ∀ b, r ≠ .byte b

theorem noBytes_nil : NoBytes [] := by simp [NoBytes]

theorem noBytes_fin (v : BitVec 4) (d : Byte) : NoBytes [.fin v d] := by simp [NoBytes]

theorem AllSymbols.noBytes {A : Alphabet} {rs : List Response} (h : AllSymbols A rs) :
    NoBytes rs := by
  rintro r hr b rfl
  obtain ⟨d, hd⟩ := h _ hr
  cases hd

theorem NoBytes.append {rs rs' : List Response} (h : NoBytes rs) (h' : NoBytes rs') :
    NoBytes (rs ++ rs') :=
  fun r hr => (List.mem_append.1 hr).elim (h r) (h' r)

/-- Only a `BYTE` has a word of `kind` 0x2 (R87). -/
theorem kindField_responseWord_ne_two {r : Response} (h : ∀ b, r ≠ .byte b) :
    kindField (responseWord r) ≠ 2#4 := by
  cases r with
  | sym c => simp [responseWord_sym]
  | byte b => exact absurd rfl (h b)
  | fin v d => simp [responseWord_fin]
  | stat st =>
    obtain ⟨v, d, rfl⟩ := exists_status_fields st
    simp [responseWord_stat]
  | illc => decide

/-- A `DECS` that finds an error or raises one answers nothing: only the group that leaves the stream
clean is delivered (R141, R143 (a)). -/
theorem decodeChar_silent {A : Alphabet} {c : Byte} {s t : State} (hs : DecodeLegal A s)
    (h : decodeChar A c s = .next t) (herr : s.err ≠ 0#3 ∨ t.err ≠ 0#3) : t.rsp = s.rsp := by
  obtain ⟨-, hcond, -⟩ := hs
  by_cases h1 : s.err = 1#3
  · rw [decodeChar_dead A c s h1] at h
    obtain rfl := Host.Outcome.next.inj h
    rfl
  cases hc : (inv A c).valid with
  | false =>
    rw [decodeChar_invalid A c s h1 hc] at h
    obtain rfl := Host.Outcome.next.inj h
    rfl
  | true =>
    by_cases h3 : s.err = 3#3
    · rw [decodeChar_drain A c s h3 hc] at h
      obtain rfl := Host.Outcome.next.inj h
      rfl
    · have h0 : s.err = 0#3 := hcond.resolve_right (by simp [h1, h3])
      rw [decodeChar_clean A c s h1 h3 hc] at h
      obtain rfl := Host.Outcome.next.inj h
      obtain ⟨-, heq⟩ | ⟨-, -, heq⟩ | ⟨-, -, heq⟩ := acceptDigit_cases (inv A c).value s h0
      · rw [heq]
      · have hclean : (acceptDigit (inv A c).value s).err = 0#3 := by rw [heq]; exact h0
        simp [h0, hclean] at herr
      · rw [heq]

/-- `DECF` with an error recorded answers its `FIN` alone (R142, R209). -/
theorem finishResponses_of_error {s : State} (e : KinvEntry) (h : s.err = 1#3 ∨ s.err = 3#3) :
    ∃ v d, finishResponses e s = [.fin v d] := by
  obtain h1 | h3 := h
  · exact ⟨_, _, by rw [finishResponses, if_pos h1]⟩
  · cases hvalid : e.valid with
    | false => exact ⟨2#4, 0#8, by simp [finishResponses, h3, hvalid]⟩
    | true => exact ⟨3#4, 0#8, by simp [finishResponses, h3, hvalid]⟩

/-- A `DECF` that finds an error answers no byte. -/
theorem decodeFinish_noBytes {A : Alphabet} {s t : State} (hs : DecodeLegal A s)
    (h : decodeFinish s = .next t) (herr : s.err ≠ 0#3) :
    ∃ rs : List Response, t.rsp = s.rsp ++ rs.map responseWord ∧ NoBytes rs := by
  obtain ⟨hns, hcond, -⟩ := hs
  obtain ⟨e, he⟩ : ∃ e, kinv s.ns.toNat = some e :=
    Option.ne_none_iff_exists'.1 (mt (kinv_eq_none_iff _).1 (by omega))
  obtain ⟨v, d, hfin⟩ := finishResponses_of_error e (hcond.resolve_left herr)
  rw [decodeFinish_eq he, hfin] at h
  obtain rfl := Host.Outcome.next.inj h
  exact ⟨_, rfl, noBytes_fin v d⟩

/-- An instruction that finds an error or leaves one answers no byte (R209, R143 (a)). -/
theorem execWith_noBytes {A : Alphabet} {i : Instr} {s t : State} (hs : Inv A s)
    (h : execWith A i s = .next t) (herr : s.err ≠ 0#3 ∨ t.err ≠ 0#3) :
    ∃ rs : List Response, t.rsp = s.rsp ++ rs.map responseWord ∧ NoBytes rs := by
  obtain ⟨-, hdecode⟩ := (inv_iff A s).1 hs
  cases i with
  | nop =>
    obtain rfl := Host.Outcome.next.inj h
    exact ⟨[], by simp, noBytes_nil⟩
  | clr =>
    obtain rfl := Host.Outcome.next.inj h
    exact ⟨[], by simp, noBytes_nil⟩
  | encb b =>
    obtain ⟨rs, hrsp, rfl | ⟨-, hrs⟩⟩ := encodeByte_responses h
    · exact ⟨[], hrsp, noBytes_nil⟩
    · exact ⟨rs, hrsp, hrs.noBytes⟩
  | encf =>
    obtain ⟨ss, hrsp, -, hss⟩ := encodeFinish_responses h
    exact ⟨_, hrsp, hss.noBytes.append (noBytes_fin _ _)⟩
  | decs c => exact ⟨[], by simp [decodeChar_silent hdecode h herr], noBytes_nil⟩
  | decf =>
    obtain ⟨-, -, hclear, -⟩ := decodeFinish_clear h
    exact decodeFinish_noBytes hdecode h (herr.resolve_right (not_not_intro hclear))
  | rdst =>
    obtain rfl := Host.Outcome.next.inj h
    exact ⟨[.stat (statusBits s)], rfl, by simp [NoBytes]⟩

theorem stepWith_noBytes {A : Alphabet} {s t : State} (hs : Inv A s) (h : stepWith A s = .next t)
    (herr : s.err ≠ 0#3 ∨ t.err ≠ 0#3) :
    ∃ rs : List Response, newResponses s t = rs.map responseWord ∧ NoBytes rs := by
  obtain ⟨-, rfl⟩ | ⟨w, rest, i, -, -, hi⟩ | ⟨w, rest, e, -, -, rfl⟩ | ⟨rest, -, rfl⟩ |
    ⟨rest, -, rfl⟩ := stepBy_cases h
  · exact ⟨[], newResponses_eq_nil le_rfl, noBytes_nil⟩
  · obtain ⟨rs, hrsp, hrs⟩ := execWith_noBytes (s := { s with host := rest }) hs hi herr
    exact ⟨rs, newResponses_append s t _ hrsp, hrs⟩
  · exact ⟨[.illc], newResponses_append s _ _ rfl, by simp [NoBytes]⟩
  · exact ⟨[], newResponses_eq_nil (by simp), noBytes_nil⟩
  · exact ⟨[], newResponses_eq_nil (by simp), noBytes_nil⟩

/-- Settles O37: a step with `ERR` set before or after it answers no `BYTE`, so no word of its kind. -/
theorem noBytesAfterAnError : Obligations.NoBytesAfterAnError := by
  intro A s t hs h herr w hw
  obtain ⟨rs, hrs, hno⟩ := stepWith_noBytes hs h herr
  rw [hrs] at hw
  obtain ⟨r, hr, rfl⟩ := List.mem_map.1 hw
  exact kindField_responseWord_ne_two (hno r hr)

/-! ### Runs from a legal state -/

/-- Every act of the host, and none, is answered in a legal state (R200, R238). -/
theorem stepWith_answers {A : Alphabet} {s : State} (hs : Inv A s) : Answers (stepWith A s) := by
  cases hhost : s.host with
  | nil => exact ⟨s, stepBy_idle _ s hhost⟩
  | cons e rest =>
    rw [stepWith, stepBy_event _ s e rest hhost]
    cases e with
    | command w => exact runWord_answers (s := { s with host := rest }) hs w
    | takeResponse => exact ⟨_, rfl⟩
    | reset => exact ⟨_, rfl⟩

/-- A run of one more step. -/
theorem run_succ_of_step {s t : State} (h : step s = .next t) (k : Nat) :
    Host.Core.run core (k + 1) s = Host.Core.run core k t := by
  have hstep : core.step s = .next t := h
  simp only [Host.Core.run, hstep]

/-- Settles O42, by induction on the number of steps: a legal state answers, and its step keeps R30. -/
theorem legalStatesRunForever : Obligations.LegalStatesRunForever := by
  intro k
  induction k with
  | zero => exact fun s hs => ⟨s, rfl, hs⟩
  | succ k ih =>
    intro s hs
    obtain ⟨u, hu⟩ := stepWith_answers hs
    obtain ⟨t, ht, htInv⟩ := ih u (stepWith_keeps_inv hs hu)
    exact ⟨t, (run_succ_of_step ((step_eq_stepWith s).trans hu) k).trans ht, htInv⟩

end Sys2Proof.Machine
end

section
/-! ## Reset, steps and the channels -/

namespace Sys2Proof.Machine

/-! ### One step for each act of the host -/

/-- A command word that decodes runs as its instruction (R94, R239). -/
theorem runWord_decoded (ex : Meaning) {w : Word16} {i : Instr} (h : decode w = .ok i)
    (s : State) : runWord ex w s = ex i s := by
  simp [runWord, h]

/-- Settles O2: the next act is the reset, and `DIG` is left as the model's reset leaves it. -/
theorem resetEventClearsTheBlock : Obligations.ResetEventClearsTheBlock := fun s rest hhost =>
  ⟨State.reset.dig, stepBy_event exec s .reset rest hhost⟩

/-- Settles O3: the next act is the command word, run as the instruction it decodes to. -/
theorem stepRunsTheDecodedInstruction : Obligations.StepRunsTheDecodedInstruction := by
  intro s w rest i hhost hdecode
  rw [step, stepBy_event exec s _ rest hhost]
  exact runWord_decoded exec hdecode _

theorem takeResponse_of_cons {s : State} {w : Word16} {ws : List Word16} (h : s.rsp = w :: ws) :
    takeResponse s = { s with rsp := ws, delivered := s.delivered ++ [w] } := by
  simp [takeResponse, h]

theorem takeResponse_of_nil {s : State} (h : s.rsp = []) : takeResponse s = s := by
  cases s
  cases h
  simp [takeResponse]

/-- The step in which the host takes a response (R233). -/
theorem step_takeResponse {s : State} {rest : List HostEvent} (h : s.host = .takeResponse :: rest) :
    step s = .next (takeResponse { s with host := rest }) :=
  stepBy_event exec s .takeResponse rest h

/-- Settles O5: a word on offer is taken, with none on offer the channel stays, and an idle block is
left as it is. -/
theorem hostTakesTheOldestResponse : Obligations.HostTakesTheOldestResponse := by
  refine ⟨fun s rest w ws hhost hrsp => ?_, fun s rest hhost hrsp => ?_, stepBy_idle exec⟩
  · rw [step_takeResponse hhost, takeResponse_of_cons (s := { s with host := rest }) hrsp]
  · rw [step_takeResponse hhost, takeResponse_of_nil (s := { s with host := rest }) hrsp]

/-! ### The response channel over a step -/

/-- What the host has and is offered grows by what a command word answers (R233). -/
theorem runWord_channel {A : Alphabet} {w : Word16} {s t : State}
    (h : runWord (execWith A) w s = .next t) :
    t.delivered ++ t.rsp = s.delivered ++ s.rsp ++ newResponses s t := by
  rw [(runWord_frame h).1, runWord_rsp h, List.append_assoc]

/-- Settles O6, act by act: a command adds its answers, taking a word moves it from one part to the
other, and an idle block adds nothing. -/
theorem responsesAreNeverDroppedOrReordered : Obligations.ResponsesAreNeverDroppedOrReordered := by
  intro A s t h hreset
  cases hhost : s.host with
  | nil =>
    rw [stepWith, stepBy_idle _ s hhost] at h
    obtain rfl := Host.Outcome.next.inj h
    exact ⟨[], by simp⟩
  | cons e rest =>
    rw [stepWith, stepBy_event _ s e rest hhost] at h
    cases e with
    | command w => exact ⟨_, runWord_channel (s := { s with host := rest }) h, fun _ => ⟨w, rfl⟩⟩
    | takeResponse =>
      obtain rfl := Host.Outcome.next.inj h
      exact ⟨[], by rw [takeResponse_channel, List.append_nil], by simp⟩
    | reset => simp [hhost] at hreset

/-! ### Commands on the channel and the run of their words

A command neither reads nor changes what the host plans, so the machine, which finds each word on the
channel, does what the run of the words does. -/

/-- `s` with another plan of the host. -/
def withHost (es : List HostEvent) (s : State) : State := { s with host := es }

theorem encodeByte_withHost (A : Alphabet) (b : Byte) (es : List HostEvent) (s : State) :
    encodeByte A b (withHost es s) = mapNext (withHost es) (encodeByte A b s) := by
  by_cases hfull : s.nb + 1#4 = 8#4
  · rw [encodeByte_close A b s hfull, encodeByte_close A b (withHost es s) hfull]
    rfl
  · rw [encodeByte_open A b s hfull, encodeByte_open A b (withHost es s) hfull]
    rfl

theorem encodeFinish_withHost (A : Alphabet) (es : List HostEvent) (s : State) :
    encodeFinish A (withHost es s) = mapNext (withHost es) (encodeFinish A s) := by
  by_cases h0 : s.nb = 0#4
  · rw [encodeFinish_empty A s h0, encodeFinish_empty A (withHost es s) h0]
    rfl
  · cases hK : ktab s.nb.toNat with
    | none =>
      have hnb := (ktab_eq_none_iff _).1 hK
      rw [encodeFinish_stop A s hnb, encodeFinish_stop A (withHost es s) hnb]
      rfl
    | some K =>
      rw [encodeFinish_partial A s K h0 hK, encodeFinish_partial A (withHost es s) K h0 hK]
      rfl

/-- An instruction does the same whatever the host plans, and leaves the plan as it is (R233). -/
theorem execWith_withHost (A : Alphabet) (i : Instr) (es : List HostEvent) (s : State) :
    execWith A i (withHost es s) = mapNext (withHost es) (execWith A i s) := by
  have hdecode (hi : IsDecode i) :
      execWith A i (withHost es s) = mapNext (withHost es) (execWith A i s) := by
    have hpart : decodePart (withHost es s) = decodePart s := rfl
    rw [execWith_decode_local A hi s, execWith_decode_local A hi (withHost es s), hpart]
    cases execWith A i (decodePart s) <;> rfl
  cases i with
  | nop => rfl
  | clr => rfl
  | rdst => rfl
  | encb b => exact encodeByte_withHost A b es s
  | encf => exact encodeFinish_withHost A es s
  | decs c => exact hdecode (.inl ⟨c, rfl⟩)
  | decf => exact hdecode (.inr rfl)

theorem runWord_withHost (w : Word16) (es : List HostEvent) (s : State) :
    runWord exec w (withHost es s) = mapNext (withHost es) (runWord exec w s) := by
  rw [exec_eq_execWith_alphabet]
  cases hd : decode w with
  | ok i => rw [runWord_decoded _ hd, runWord_decoded _ hd, execWith_withHost]
  | error e =>
    rw [runWord_illegal _ hd, runWord_illegal _ hd]
    rfl

/-- The step in which a command word is taken: the word is run, and the rest of the plan is left. -/
theorem step_command {s : State} {w : Word16} {rest : List HostEvent}
    (h : s.host = .command w :: rest) : step s = mapNext (withHost rest) (runWord exec w s) :=
  (stepBy_event exec s _ rest h).trans (runWord_withHost w rest s)

/-- Settles O7, by induction on the words: the next word takes the machine and the run to states that
differ in the plan of the host only, or stops both with the same fault. -/
theorem hostQueueRunsAsTheCommandSequence : Obligations.HostQueueRunsAsTheCommandSequence := by
  intro ws rest s hhost
  induction ws generalizing s with
  | nil =>
    obtain rfl : s.host = rest := hhost
    rfl
  | cons w ws ih =>
    have hstep : core.step s = mapNext (withHost (commandsOf ws ++ rest)) (runWord exec w s) :=
      step_command hhost
    have hrun : runWord exec w { s with host := rest } =
        mapNext (withHost rest) (runWord exec w s) := runWord_withHost w rest s
    simp only [List.length_cons, Host.Core.run, runWords, hstep, hrun]
    cases runWord exec w s with
    | next t => exact ih (withHost (commandsOf ws ++ rest) t) rfl
    | fault r => rfl
    | refused r => rfl

end Sys2Proof.Machine
end
